-- ==== Sys2Proof/Word.lean ====
section
/-! DEFINITION. The words of FE256: the 64-bit limb, the limb vectors, the command word and the port value. -/

namespace Sys2Proof

/-- A 64-bit limb, the source's "word" (`00_scope.md` R10, `40_limb_arithmetic.md` introduction). -/
abbrev Word := BitVec 64

/-- A 32-bit command word, and the width of STATUS, RSTAT and FCMD (`30_encoding.md` R60, `10_state.md` R24, R28). -/
abbrev CmdWord := BitVec 32

/-- A value on DIN or DOUT (`20_memory.md` R45). -/
abbrev PortWord := BitVec 512

/-- A four-limb vector `[l0, l1, l2, l3]`, least significant limb first (`00_scope.md` R10). -/
structure Limbs4 where
  l0 : Word
  l1 : Word
  l2 : Word
  l3 : Word
  deriving DecidableEq, Repr

/-- An eight-limb vector `[t0 … t7]`, least significant limb first (`00_scope.md` R10). -/
structure Limbs8 where
  t0 : Word
  t1 : Word
  t2 : Word
  t3 : Word
  t4 : Word
  t5 : Word
  t6 : Word
  t7 : Word
  deriving DecidableEq, Repr

end Sys2Proof
end

