-- ==== Sys2Proof/Config.lean ====
section
/-! DEFINITION. The fixed parameters of FE256 (`00_scope.md` R2, R7). Latency is the only open one and no rule reads it
(`92_eei_decisions.md` D24), so there is no free value here. -/

namespace Sys2Proof.Config

/-- The modulus of the field (`00_scope.md` R2). -/
def q : Nat := 0xFFFFFFFFFFFFFFFFFFFFFFFFFFFFFFFEBAAEDCE6AF48A03BBFD25E8CD0364141

/-- The Montgomery radix (`00_scope.md` R3). -/
def radix : Nat := 2 ^ 256

end Sys2Proof.Config
end

