-- ==== Sys2Proof/Syntax.lean ====
section
/-! DEFINITION. The FE256 command set, version 1: one constructor per row of the opcode table (`30_encoding.md` R61, R63).

A register operand is its number, in the range its file has (R65). The three immediates stand at the width the row's
mask leaves them (R63, R66); which of their values are legal is the business of `WellFormed`. -/

namespace Sys2Proof

/-- The number of an element register, 0 to 7: NE = 8 (`30_encoding.md` R65, `10_state.md` R20). -/
abbrev ERegNum := Fin 8

/-- The number of a wide register, 0 to 3: NW = 4 (`30_encoding.md` R65, `10_state.md` R23). -/
abbrev WRegNum := Fin 4

/-- A decoded command. The argument order is `rd`, `ra`, `rb`, `imm`, less the fields the format marks 0 (R61). -/
inductive Instr where
  -- codec and data movement (`42_codec.md`)
  | ldb   (rd : ERegNum)
  | stb   (ra : ERegNum)
  | ldi   (rd : ERegNum)
  | ldraw (rd : ERegNum)
  | ldc   (rd : ERegNum) (c : BitVec 3)
  | ldw   (rd : WRegNum)
  | stw   (ra : WRegNum)
  | fwide (rd : ERegNum) (ra : WRegNum)
  -- field core (`41_field_core.md`)
  | fadd  (rd ra rb : ERegNum)
  | fsub  (rd ra rb : ERegNum)
  | fneg  (rd ra : ERegNum)
  | fdbl  (rd ra : ERegNum)
  | fmul  (rd ra rb : ERegNum)
  | fsqr  (rd ra : ERegNum)
  | mulw  (rd : WRegNum) (ra rb : ERegNum)
  | sqrw  (rd : WRegNum) (ra : ERegNum)
  | mred  (rd : ERegNum) (ra : WRegNum)
  -- exponentiation (`43_exponentiation.md`)
  | fpow  (rd ra : ERegNum) (rb : WRegNum)
  | finv  (rd ra : ERegNum)
  -- comparison and selection (`44_constant_time.md`)
  | cteq  (ra rb : ERegNum)
  | csel  (rd ra rb : ERegNum) (cm : BitVec 2)
  | fcmp  (ra rb : ERegNum)
  -- system (`45_system.md`)
  | rdsr  (sr : BitVec 4)
  | genr
  | rootu
  deriving DecidableEq, Repr

end Sys2Proof
end

