-- ==== Sys2Proof/WellFormed.lean ====
section
/-! DEFINITION. The immediate constraints of `30_encoding.md` R66, the checks of step (3) of the decode procedure (R62).
Register numbers need no check here: their types hold only legal numbers (R65). -/

namespace Sys2Proof

/-- The command satisfies its row's immediate constraint (`30_encoding.md` R66). -/
def Instr.wellFormed : Instr → Bool
  | .ldc _ c => decide (c.toNat ≤ 4)
  | .rdsr sr => decide (sr.toNat ∈ [0, 1, 2, 3, 4, 8, 9, 10, 11])
  | .csel _ _ _ cm => decide (cm.toNat ≤ 2)
  | .ldb _ | .stb _ | .ldi _ | .ldraw _ | .ldw _ | .stw _ | .fwide _ _ => true
  | .fadd _ _ _ | .fsub _ _ _ | .fneg _ _ | .fdbl _ _ | .fmul _ _ _ | .fsqr _ _ => true
  | .mulw _ _ _ | .sqrw _ _ | .mred _ _ | .fpow _ _ _ | .finv _ _ => true
  | .cteq _ _ | .fcmp _ _ | .genr | .rootu => true

end Sys2Proof
end

