-- ==== Sys2Proof/Decode.lean ====
section
/-! DEFINITION. The decode procedure of `30_encoding.md` R62 over the opcode map of R63, and the encoder. -/

namespace Sys2Proof

/-- Why the decoder rejects a word: the two rejecting steps of R62. Both raise the same fault (`60_exceptions.md` R221). -/
inductive IllegalReason where
  /-- Step (2): no row matches. An unassigned opcode, a nonzero unused field or a register number out of range. -/
  | noMatchingRow
  /-- Step (3): the row's immediate constraint is violated. -/
  | illegalImmediate
  deriving DecidableEq, Repr

/-- Field rd, bits 23:20, as an element-register number (R60). The row's mask has already fixed bit 23 to 0 (R63). -/
def rdElem (cmd : CmdWord) : ERegNum := Fin.ofNat 8 (cmd.toNat >>> 20)
/-- Field ra, bits 19:16, as an element-register number (R60). -/
def raElem (cmd : CmdWord) : ERegNum := Fin.ofNat 8 (cmd.toNat >>> 16)
/-- Field rb, bits 15:12, as an element-register number (R60). -/
def rbElem (cmd : CmdWord) : ERegNum := Fin.ofNat 8 (cmd.toNat >>> 12)
/-- Field rd as a wide-register number (R60). The row's mask has already fixed bits 23 and 22 to 0 (R63). -/
def rdWide (cmd : CmdWord) : WRegNum := Fin.ofNat 4 (cmd.toNat >>> 20)
/-- Field ra as a wide-register number (R60). -/
def raWide (cmd : CmdWord) : WRegNum := Fin.ofNat 4 (cmd.toNat >>> 16)
/-- Field rb as a wide-register number (R60). -/
def rbWide (cmd : CmdWord) : WRegNum := Fin.ofNat 4 (cmd.toNat >>> 12)
/-- The low `n` bits of field imm, bits 11:0 (R60, R66). -/
def immField (n : Nat) (cmd : CmdWord) : BitVec n := cmd.setWidth n

/-- A row of the opcode map: its mask, its match, and the command its fields make (R63). -/
structure OpcodeRow where
  mask  : CmdWord
  pat   : CmdWord
  build : CmdWord → Instr

/-- The opcode map, in the order of R63. -/
def opcodeMap : List OpcodeRow :=
  [ ⟨0xFF8FFFFF#32, 0x10000000#32, fun c => .ldb (rdElem c)⟩,
    ⟨0xFFF8FFFF#32, 0x11000000#32, fun c => .stb (raElem c)⟩,
    ⟨0xFF8FFFFF#32, 0x12000000#32, fun c => .ldi (rdElem c)⟩,
    ⟨0xFF8FFFFF#32, 0x13000000#32, fun c => .ldraw (rdElem c)⟩,
    ⟨0xFF8FFFF8#32, 0x14000000#32, fun c => .ldc (rdElem c) (immField 3 c)⟩,
    ⟨0xFFCFFFFF#32, 0x15000000#32, fun c => .ldw (rdWide c)⟩,
    ⟨0xFFFCFFFF#32, 0x16000000#32, fun c => .stw (raWide c)⟩,
    ⟨0xFF8CFFFF#32, 0x17000000#32, fun c => .fwide (rdElem c) (raWide c)⟩,
    ⟨0xFF888FFF#32, 0x20000000#32, fun c => .fadd (rdElem c) (raElem c) (rbElem c)⟩,
    ⟨0xFF888FFF#32, 0x21000000#32, fun c => .fsub (rdElem c) (raElem c) (rbElem c)⟩,
    ⟨0xFF88FFFF#32, 0x22000000#32, fun c => .fneg (rdElem c) (raElem c)⟩,
    ⟨0xFF88FFFF#32, 0x23000000#32, fun c => .fdbl (rdElem c) (raElem c)⟩,
    ⟨0xFF888FFF#32, 0x24000000#32, fun c => .fmul (rdElem c) (raElem c) (rbElem c)⟩,
    ⟨0xFF88FFFF#32, 0x25000000#32, fun c => .fsqr (rdElem c) (raElem c)⟩,
    ⟨0xFFC88FFF#32, 0x26000000#32, fun c => .mulw (rdWide c) (raElem c) (rbElem c)⟩,
    ⟨0xFFC8FFFF#32, 0x27000000#32, fun c => .sqrw (rdWide c) (raElem c)⟩,
    ⟨0xFF8CFFFF#32, 0x28000000#32, fun c => .mred (rdElem c) (raWide c)⟩,
    ⟨0xFF88CFFF#32, 0x30000000#32, fun c => .fpow (rdElem c) (raElem c) (rbWide c)⟩,
    ⟨0xFF88FFFF#32, 0x31000000#32, fun c => .finv (rdElem c) (raElem c)⟩,
    ⟨0xFFF88FFF#32, 0x40000000#32, fun c => .cteq (raElem c) (rbElem c)⟩,
    ⟨0xFF888FFC#32, 0x41000000#32, fun c => .csel (rdElem c) (raElem c) (rbElem c) (immField 2 c)⟩,
    ⟨0xFFF88FFF#32, 0x42000000#32, fun c => .fcmp (raElem c) (rbElem c)⟩,
    ⟨0xFFFFFFF0#32, 0x50000000#32, fun c => .rdsr (immField 4 c)⟩,
    ⟨0xFFFFFFFF#32, 0x58000000#32, fun _ => .genr⟩,
    ⟨0xFFFFFFFF#32, 0x59000000#32, fun _ => .rootu⟩ ]

/-- `(CMD & mask) = match`, the test of R62 step (1). -/
def rowMatches (cmd : CmdWord) (row : OpcodeRow) : Bool := (cmd &&& row.mask) == row.pat

/-- The decode procedure R62: total on every 32-bit word, rejecting by the name of the step that fails. -/
def decode (cmd : CmdWord) : Except IllegalReason Instr :=
  match opcodeMap.find? (rowMatches cmd) with
  | none => .error .noMatchingRow
  | some row =>
    let i := row.build cmd
    if i.wellFormed then .ok i else .error .illegalImmediate

/-- A command word from its fields: `OO D A B III` in hexadecimal digits (R60). -/
def pack (op rd ra rb imm : Nat) : CmdWord :=
  BitVec.ofNat 32 (op * 0x1000000 + rd * 0x100000 + ra * 0x10000 + rb * 0x1000 + imm)

/-- The command word of a command, from the formats of R61 and the opcodes of R63. -/
def encode : Instr → CmdWord
  | .ldb rd => pack 0x10 rd 0 0 0
  | .stb ra => pack 0x11 0 ra 0 0
  | .ldi rd => pack 0x12 rd 0 0 0
  | .ldraw rd => pack 0x13 rd 0 0 0
  | .ldc rd c => pack 0x14 rd 0 0 c.toNat
  | .ldw rd => pack 0x15 rd 0 0 0
  | .stw ra => pack 0x16 0 ra 0 0
  | .fwide rd ra => pack 0x17 rd ra 0 0
  | .fadd rd ra rb => pack 0x20 rd ra rb 0
  | .fsub rd ra rb => pack 0x21 rd ra rb 0
  | .fneg rd ra => pack 0x22 rd ra 0 0
  | .fdbl rd ra => pack 0x23 rd ra 0 0
  | .fmul rd ra rb => pack 0x24 rd ra rb 0
  | .fsqr rd ra => pack 0x25 rd ra 0 0
  | .mulw rd ra rb => pack 0x26 rd ra rb 0
  | .sqrw rd ra => pack 0x27 rd ra 0 0
  | .mred rd ra => pack 0x28 rd ra 0 0
  | .fpow rd ra rb => pack 0x30 rd ra rb 0
  | .finv rd ra => pack 0x31 rd ra 0 0
  | .cteq ra rb => pack 0x40 0 ra rb 0
  | .csel rd ra rb cm => pack 0x41 rd ra rb cm.toNat
  | .fcmp ra rb => pack 0x42 0 ra rb 0
  | .rdsr sr => pack 0x50 0 0 0 sr.toNat
  | .genr => pack 0x58 0 0 0 0
  | .rootu => pack 0x59 0 0 0 0

/-- The host's reading of a table word of `nbits` bits: what `decode` answers for it, none where it refuses. Every row has
one 32-bit word (R60), so a number that does not fit 32 bits is no command. -/
def decodeTableWord (nbits w : Nat) : Option Instr :=
  if w % 2 ^ nbits < 2 ^ 32 then
    match decode (BitVec.ofNat 32 (w % 2 ^ nbits)) with
    | .ok i => some i
    | .error _ => none
  else none

end Sys2Proof
end

