-- ==== Sys2Proof/Machine/Limb.lean ====
section
/-! DEFINITION. Limb vectors (`00_scope.md` R10, R13) and the limb arithmetic of `40_limb_arithmetic.md`: the three
primitives and the four-limb chains every command is built from. All total and stateless. -/

namespace Sys2Proof.Machine

/-- `val` of a four-limb vector (`00_scope.md` R10). -/
def val4 (l : Limbs4) : Nat :=
  l.l0.toNat + l.l1.toNat * 2 ^ 64 + l.l2.toNat * 2 ^ 128 + l.l3.toNat * 2 ^ 192

/-- `val` of an eight-limb vector (R10). -/
def val8 (t : Limbs8) : Nat :=
  t.t0.toNat + t.t1.toNat * 2 ^ 64 + t.t2.toNat * 2 ^ 128 + t.t3.toNat * 2 ^ 192 +
    t.t4.toNat * 2 ^ 256 + t.t5.toNat * 2 ^ 320 + t.t6.toNat * 2 ^ 384 + t.t7.toNat * 2 ^ 448

/-- Limb `j` of an integer: `(v div 2^(64j)) mod 2^64` (R10). -/
def limbOf (v j : Nat) : Word := BitVec.ofNat 64 (v / 2 ^ (64 * j))

/-- `limbs4`, the inverse of `val4` on integers below 2^256 (R10). -/
def limbs4 (v : Nat) : Limbs4 := ⟨limbOf v 0, limbOf v 1, limbOf v 2, limbOf v 3⟩

/-- `limbs8`, the inverse of `val8` on integers below 2^512 (R10). -/
def limbs8 (v : Nat) : Limbs8 :=
  ⟨limbOf v 0, limbOf v 1, limbOf v 2, limbOf v 3, limbOf v 4, limbOf v 5, limbOf v 6, limbOf v 7⟩

/-- `lo4` (R10). -/
def lo4 (t : Limbs8) : Limbs4 := ⟨t.t0, t.t1, t.t2, t.t3⟩

/-- `hi4` (R10). -/
def hi4 (t : Limbs8) : Limbs4 := ⟨t.t4, t.t5, t.t6, t.t7⟩

/-- `mask(b)`, the all-or-nothing word of a truth value (`00_scope.md` R13). -/
def mask (b : Bool) : Word := if b then BitVec.allOnes 64 else 0

/-- Every limb and-ed with one word. -/
def andWord (l : Limbs4) (m : Word) : Limbs4 := ⟨l.l0 &&& m, l.l1 &&& m, l.l2 &&& m, l.l3 &&& m⟩

/-- The limbs of the modulus (`10_state.md` R31). -/
def qLimbs : Limbs4 :=
  ⟨0xBFD25E8CD0364141, 0xBAAEDCE6AF48A03B, 0xFFFFFFFFFFFFFFFE, 0xFFFFFFFFFFFFFFFF⟩

/-- `mac(acc, a, b, carry)`: the low and the high word of `acc + a·b + carry` (`40_limb_arithmetic.md` R80). -/
def mac (acc a b carry : Word) : Word × Word :=
  let t := acc.toNat + a.toNat * b.toNat + carry.toNat
  (BitVec.ofNat 64 t, BitVec.ofNat 64 (t / 2 ^ 64))

/-- `adc(a, b, carry)`: the sum and the carry out of `a + b + carry`, the carry in a full word (R81). -/
def adc (a b carry : Word) : Word × Word :=
  let t := a.toNat + b.toNat + carry.toNat
  (BitVec.ofNat 64 t, BitVec.ofNat 64 (t / 2 ^ 64))

/-- `sbb(a, b, borrow)`: the difference and the borrow mask. Only bit 63 of the borrow in is read (R82). -/
def sbb (a b borrow : Word) : Word × Word :=
  let bin := borrow.toNat / 2 ^ 63
  let t := (a.toNat + 2 ^ 128 - (b.toNat + bin)) % 2 ^ 128
  (BitVec.ofNat 64 t, BitVec.ofNat 64 (t / 2 ^ 64))

/-- `add4(a, b)`: the four-limb sum and its carry (R83). -/
def add4 (a b : Limbs4) : Limbs4 × Word :=
  let (d0, c) := adc a.l0 b.l0 0
  let (d1, c) := adc a.l1 b.l1 c
  let (d2, c) := adc a.l2 b.l2 c
  let (d3, c) := adc a.l3 b.l3 c
  (⟨d0, d1, d2, d3⟩, c)

/-- `sub4(a, b)`: the four-limb difference and its borrow mask (R84). -/
def sub4 (a b : Limbs4) : Limbs4 × Word :=
  let (d0, bw) := sbb a.l0 b.l0 0
  let (d1, bw) := sbb a.l1 b.l1 bw
  let (d2, bw) := sbb a.l2 b.l2 bw
  let (d3, bw) := sbb a.l3 b.l3 bw
  (⟨d0, d1, d2, d3⟩, bw)

/-- `ltq(x)`, the range validator: bit 0 of the borrow of `x − q` (R85). -/
def ltq (x : Limbs4) : Bool := (sub4 x qLimbs).2.getLsbD 0

/-- `csubq(d, c)`: the conditional subtraction of q from `c·2^256 + val(d)`. The trial difference and its borrow, then q
added back under the borrow mask, the last carry discarded (R86). -/
def csubq (d : Limbs4) (c : Word) : Limbs4 :=
  let (e, bw) := sub4 d qLimbs
  let (_, bw) := sbb c 0 bw
  (add4 e (andWord qLimbs bw)).1

end Sys2Proof.Machine
end

