-- ==== Sys2Proof/Machine/Constants.lean ====
section
/-! DEFINITION. The constants of FE256, which are configuration and not state (`10_state.md` R29 to R31), and the parameter
values software reads (R32, R33). -/

namespace Sys2Proof.Machine

/-- ROM[0], the stored form of 0 (R30). -/
def romZero : Limbs4 := ⟨0, 0, 0, 0⟩
/-- ROM[1], the stored form of 1: R mod q (R30). -/
def romOne : Limbs4 := ⟨0x402DA1732FC9BEBF, 0x4551231950B75FC4, 0x0000000000000001, 0x0000000000000000⟩
/-- ROM[2]: R² mod q (R30). -/
def romR2 : Limbs4 := ⟨0x896CF21467D7D140, 0x741496C20E7CF878, 0xE697F5E45BCD07C6, 0x9D671CD581C69BC5⟩
/-- ROM[3]: R³ mod q (R30). -/
def romR3 : Limbs4 := ⟨0x7BC0CFE0E9FF41ED, 0x0017648444D4322C, 0xB1B31347F1D0B2DA, 0x555D800C18EF116D⟩
/-- ROM[4], the stored form of the inverse of 2 (R30). -/
def romTwoInv : Limbs4 := ⟨0, 0, 0, 0x8000000000000000⟩

/-- INV, the word −q⁻¹ mod 2^64 of the reducer (R31). -/
def inv64 : Word := 0x4B0DFF665588B13F

/-- The limbs of q − 2, the exponent of Fermat inversion, least significant first (R31). -/
def qMinus2 : List Word :=
  [0xBFD25E8CD036413F, 0xBAAEDCE6AF48A03B, 0xFFFFFFFFFFFFFFFE, 0xFFFFFFFFFFFFFFFF]

/-- NUM_BITS, system register 2 (R33). -/
def numBits : Word := 256
/-- CAPACITY, system register 3 (R33). -/
def capacity : Word := 255
/-- TWO_ADICITY, system register 4 (R33). -/
def twoAdicity : Word := 6

end Sys2Proof.Machine
end

