-- ==== Sys2Proof/Machine/State.lean ====
section
/-! DEFINITION. The state of FE256 (`10_state.md`), with the transaction port (`20_memory.md` R40) and the moves the host
has still to make (R53). -/

namespace Sys2Proof.Machine

/-- A command as the host presents it: the command word and the data-in value (`20_memory.md` R40). -/
structure Command where
  cmd : CmdWord
  din : PortWord
  deriving DecidableEq, Repr

/-- What the block presents in answer to a command (`20_memory.md` R40, R42). -/
structure Response where
  rstat : CmdWord
  dout  : PortWord
  deriving DecidableEq, Repr

/-- A move of the host: to issue a command, or to assert reset (`20_memory.md` R41, `70_reset_and_hazards.md` R250). A
reset may catch a command in flight, which it then abandons (R252). The host has no other move: it never issues a
command while another is in flight (R41(a), `93_implementation_defined.md` U6). -/
inductive HostMove where
  | command (c : Command)
  | reset (inFlight : Option Command)
  deriving DecidableEq, Repr

/-- The whole state. `e`, `w`, `status` and `fcmd` are the block's registers (`10_state.md` R20, R23, R24, R28); `cmd`,
`din` and `resp` are what stands on its port (`20_memory.md` R40); `pending` and `k` belong to the host's listing
(R53, `10_state.md` R35). -/
structure State where
  /-- E0 to E7 (R20). -/
  e : Vector Limbs4 8
  /-- W0 to W3 (R23). -/
  w : Vector Limbs8 4
  /-- STATUS, system register 0: T bit 0, ORD bits 2:1, FAULT bits 7:4, the rest reserved (R24). -/
  status : CmdWord
  /-- FCMD, system register 1 (R28). -/
  fcmd : CmdWord
  /-- CMD, the word of the command being executed. -/
  cmd : CmdWord
  /-- DIN, the data-in value of that command. -/
  din : PortWord
  /-- The response to the last command, none when there is none since reset. -/
  resp : Option Response
  /-- The moves the host has still to make, the next one first. -/
  pending : List HostMove
  /-- The listing index: how many commands have been issued. -/
  k : Nat
  deriving DecidableEq, Repr

/-- The reasons the machine can stop. There are none: every command in every state gets a response (`20_memory.md` R42),
and the two faults of the spec are states the block goes on from (`60_exceptions.md` R224, R225), so no step raises a
stop and the type has no constructor. -/
inductive Fault where
  deriving DecidableEq, Repr

/-- The reasons an instruction has no meaning. -/
inductive Refusal where
  /-- Raised by the arm of `exec` of an instruction that has no meaning yet; safe. No arm raises it: every row of the
  opcode table has its meaning. -/
  | notModelled (mnemonic : String)
  deriving DecidableEq, Repr

/-- The zero vectors of the reset table (`10_state.md` R37). -/
def zero4 : Limbs4 := ⟨0, 0, 0, 0⟩
def zero8 : Limbs8 := ⟨0, 0, 0, 0, 0, 0, 0, 0⟩

/-- The machine right after reset (`10_state.md` R37, `70_reset_and_hazards.md` R251), with no response presented (R250)
and nothing yet asked of it. The zeros of `cmd` and `din`, and the empty list, are the model's (log 1 and 2). -/
def State.reset : State where
  e := Vector.replicate 8 zero4
  w := Vector.replicate 4 zero8
  status := 0
  fcmd := 0
  cmd := 0
  din := 0
  resp := none
  pending := []
  k := 0

end Sys2Proof.Machine
end

