-- ==== Sys2Proof/Machine/Flags.lean ====
section
/-! DEFINITION. The fields of STATUS and every flag a command writes (`10_state.md` R24 to R27). -/

namespace Sys2Proof.Machine

/-- The two fault codes a command can raise (`60_exceptions.md` R220). -/
inductive FaultCode where
  | illegalCommand
  | unsupportedOperation
  deriving DecidableEq, Repr

/-- The number STATUS.FAULT records for a fault (R220). -/
def faultNumber : FaultCode → BitVec 4
  | .illegalCommand => 1
  | .unsupportedOperation => 2

/-- The outcome of a comparison of represented values (`44_constant_time.md` R182). -/
inductive OrderResult where
  | equal
  | less
  | greater
  deriving DecidableEq, Repr

/-- The encoding of a comparison's outcome in ORD (`10_state.md` R26). -/
def orderNumber : OrderResult → BitVec 2
  | .equal => 0
  | .less => 1
  | .greater => 2

/-- Bits `lo + n - 1` down to `lo` of a status word. -/
def getField (lo n : Nat) (st : CmdWord) : BitVec n := st.extractLsb' lo n

/-- The status word with bits `lo + n - 1` down to `lo` replaced, every other bit kept. -/
def putField (lo n : Nat) (st : CmdWord) (v : BitVec n) : CmdWord :=
  (st &&& ~~~((BitVec.allOnes n).setWidth 32 <<< lo)) ||| (v.setWidth 32 <<< lo)

/-- T, bit 0 (R24, R25). -/
def statusT (st : CmdWord) : Bool := getField 0 1 st == 1
/-- ORD, bits 2:1 (R24, R26). -/
def statusOrd (st : CmdWord) : BitVec 2 := getField 1 2 st
/-- FAULT, bits 7:4 (R24, R27). -/
def statusFault (st : CmdWord) : BitVec 4 := getField 4 4 st

/-- `T <- b` (R25). -/
def setT (st : CmdWord) (b : Bool) : CmdWord := putField 0 1 st (BitVec.ofBool b)
/-- `ORD <- o` (R26). -/
def setOrd (st : CmdWord) (o : OrderResult) : CmdWord := putField 1 2 st (orderNumber o)
/-- `FAULT <- n` (R27). -/
def setFault (st : CmdWord) (f : FaultCode) : CmdWord := putField 4 4 st (faultNumber f)

end Sys2Proof.Machine
end

