-- ==== Sys2Proof/Machine/Operands.lean ====
section
/-! DEFINITION. Every operand form of the command set: the two register files, the lanes of DIN and DOUT, the constant ROM,
the system registers and the choice of CSEL. -/

namespace Sys2Proof.Machine

/-- `E[i]` (`00_scope.md` R11, `10_state.md` R20). -/
def readE (s : State) (i : ERegNum) : Limbs4 := s.e[i]
/-- `E[i] <- v`. -/
def writeE (s : State) (i : ERegNum) (v : Limbs4) : State := { s with e := s.e.set i v }
/-- `W[i]` (`10_state.md` R23). -/
def readW (s : State) (i : WRegNum) : Limbs8 := s.w[i]
/-- `W[i] <- v`. -/
def writeW (s : State) (i : WRegNum) (v : Limbs8) : State := { s with w := s.w.set i v }

/-- Limb lane `j` of a port value: bits 64j+63 down to 64j (`20_memory.md` R45). -/
def limbLane (p : PortWord) (j : Nat) : Word := p.extractLsb' (64 * j) 64

/-- Byte lane `k` of a port value: bits 8k+7 down to 8k (R45). -/
def byteLane (p : PortWord) (k : Nat) : BitVec 8 := p.extractLsb' (8 * k) 8

/-- The four limbs of DIN[255:0]: `dec32` (`42_codec.md` R130). -/
def dec32 (din : PortWord) : Limbs4 := ⟨limbLane din 0, limbLane din 1, limbLane din 2, limbLane din 3⟩

/-- The eight limbs of DIN[511:0] (`42_codec.md` R141). -/
def decWide (din : PortWord) : Limbs8 :=
  ⟨limbLane din 0, limbLane din 1, limbLane din 2, limbLane din 3,
    limbLane din 4, limbLane din 5, limbLane din 6, limbLane din 7⟩

/-- Byte `k` of the 32-byte little-endian encoding of four limbs (`42_codec.md` R130). -/
def encByte (l : Limbs4) (k : Nat) : BitVec 8 := BitVec.ofNat 8 (val4 l / 2 ^ (8 * k))

/-- DOUT when lane `j` carries the `j`-th limb of the list and every other bit is 0 (R45). -/
def driveLimbs : List Word → PortWord
  | [] => 0
  | l :: rest => (driveLimbs rest <<< 64) ||| l.setWidth 512

/-- DOUT[255:0] driven with `enc32(l)`, which changes no bit (`42_codec.md` R130, `20_memory.md` R46). -/
def driveElem (l : Limbs4) : PortWord := driveLimbs [l.l0, l.l1, l.l2, l.l3]

/-- DOUT[511:0] driven with a wide value (`42_codec.md` R142). -/
def driveWide (t : Limbs8) : PortWord := driveLimbs [t.t0, t.t1, t.t2, t.t3, t.t4, t.t5, t.t6, t.t7]

/-- DOUT[63:0] driven with a word (`45_system.md` R201). -/
def driveWord (v : Word) : PortWord := driveLimbs [v]

/-- `ROM[c]`, none for the illegal indices 5, 6, 7 (`10_state.md` R30, `30_encoding.md` R66). -/
def romRead (c : BitVec 3) : Option Limbs4 :=
  match c.toNat with
  | 0 => some romZero
  | 1 => some romOne
  | 2 => some romR2
  | 3 => some romR3
  | 4 => some romTwoInv
  | _ => none

/-- `SR[sr]` zero-extended to 64 bits, none for the reserved numbers (`10_state.md` R33, `45_system.md` R201). -/
def sysRead (s : State) (sr : BitVec 4) : Option Word :=
  match sr.toNat with
  | 0 => some (s.status.setWidth 64)
  | 1 => some (s.fcmd.setWidth 64)
  | 2 => some numBits
  | 3 => some capacity
  | 4 => some twoAdicity
  | 8 => some qLimbs.l0
  | 9 => some qLimbs.l1
  | 10 => some qLimbs.l2
  | 11 => some qLimbs.l3
  | _ => none

/-- The choice of CSEL: 0, 1, or T as it stands before the command; none for the illegal mode 3 (`44_constant_time.md`
R184). -/
def choiceOf (s : State) (cm : BitVec 2) : Option Bool :=
  match cm.toNat with
  | 0 => some false
  | 1 => some true
  | 2 => some (statusT s.status)
  | _ => none

end Sys2Proof.Machine
end

