-- ==== Sys2Proof/Machine/Ops.lean ====
section
/-! DEFINITION. The named operations every command is built from: the response, the faulted state, fault entry and its
exit, the completion of a command, the absent result, and the latching of a command. -/

namespace Sys2Proof.Machine

/-- The outcomes of a step of FE256. -/
abbrev Outcome := Host.Outcome State Fault Refusal

/-- Present the response of a command: RSTAT is STATUS as it now stands, DOUT as given (`20_memory.md` R42, R45). -/
def respond (s : State) (dout : PortWord) : State :=
  { s with resp := some { rstat := s.status, dout := dout } }

/-- The block is in the faulted state: FAULT ≠ 0 (`10_state.md` R27). -/
def faulted (s : State) : Bool := statusFault s.status != 0

/-- What the faulted state does with a command: no state changes, the response is RSTAT = STATUS and DOUT = 0
(`60_exceptions.md` R225, `20_memory.md` R43). -/
def ignore (s : State) : State := respond s 0

/-- Fault entry, `raise F(CMD)` (`60_exceptions.md` R224): FAULT and FCMD are written, nothing else, and the response
carries the new FAULT. In the faulted state nothing is raised (R223, R225, `10_state.md` R27). -/
def raiseFault (f : FaultCode) (s : State) : Outcome :=
  if faulted s then .next (ignore s)
  else .next (respond { s with status := setFault s.status f, fcmd := s.cmd } 0)

/-- The effect of reset, the only exit from the faulted state (`70_reset_and_hazards.md` R251, `60_exceptions.md` R227):
every register takes its reset value and no response is presented. The host's listing is not the block's to reset. -/
def applyReset (s : State) : State := { State.reset with pending := s.pending, k := s.k }

/-- Complete a command whose register and flag writes give `s'`: they happen and DOUT is driven, unless the block was
faulted before the command, when it is ignored (`60_exceptions.md` R225). -/
def complete (s s' : State) (dout : PortWord) : Outcome :=
  if faulted s then .next (ignore s) else .next (respond s' dout)

/-- `T <- b`. -/
def writeT (s : State) (b : Bool) : State := { s with status := setT s.status b }

/-- `ORD <- o`. -/
def writeOrd (s : State) (o : OrderResult) : State := { s with status := setOrd s.status o }

/-- A result that may be absent (`60_exceptions.md` R229): `T <- ok`, and `E[rd] <- r` only when `ok`. -/
def deliver (s : State) (rd : ERegNum) (ok : Bool) (r : Limbs4) : State :=
  if ok then writeE (writeT s true) rd r else writeT s false

/-- Issue a command: CMD and DIN stand on the port for the whole command, and the listing moves on (`20_memory.md` R41(b),
`10_state.md` R35). -/
def latch (c : Command) (s : State) : State := { s with cmd := c.cmd, din := c.din, k := s.k + 1 }

end Sys2Proof.Machine
end

