-- ==== Sys2Proof/Machine/FieldCore.lean ====
section
/-! DEFINITION. The Montgomery field core (`41_field_core.md`): its functions, then the nine commands that expose them. -/

namespace Sys2Proof.Machine

/-! ### Functions -/

/-- `fadd(a, b)` (R101). -/
def fadd (a b : Limbs4) : Limbs4 :=
  let (d, c) := add4 a b
  csubq d c

/-- `fsub(a, b)`: q is added back under the borrow mask (R102). -/
def fsub (a b : Limbs4) : Limbs4 :=
  let (d, bw) := sub4 a b
  (add4 d (andWord qLimbs bw)).1

/-- `fneg(a)`: `q − a`, masked to zero when `a` is zero (R103). -/
def fneg (a : Limbs4) : Limbs4 :=
  let z := a.l0 ||| a.l1 ||| a.l2 ||| a.l3
  andWord (sub4 qLimbs a).1 (mask (z != 0))

/-- One row of the schoolbook product: the running limbs plus `ai·b`, and the carry out of the row (R104, inner loop). -/
def mulRow (acc : Limbs4) (ai : Word) (b : Limbs4) : Limbs4 × Word :=
  let (t0, c) := mac acc.l0 ai b.l0 0
  let (t1, c) := mac acc.l1 ai b.l1 c
  let (t2, c) := mac acc.l2 ai b.l2 c
  let (t3, c) := mac acc.l3 ai b.l3 c
  (⟨t0, t1, t2, t3⟩, c)

/-- `mulw(a, b)`, the full product: four rows, each starting one limb higher and leaving its lowest limb behind (R104). -/
def mulw (a b : Limbs4) : Limbs8 :=
  let (r, c) := mulRow ⟨0, 0, 0, 0⟩ a.l0 b
  let t0 := r.l0
  let (r, c) := mulRow ⟨r.l1, r.l2, r.l3, c⟩ a.l1 b
  let t1 := r.l0
  let (r, c) := mulRow ⟨r.l1, r.l2, r.l3, c⟩ a.l2 b
  let t2 := r.l0
  let (r, c) := mulRow ⟨r.l1, r.l2, r.l3, c⟩ a.l3 b
  ⟨t0, t1, t2, r.l0, r.l1, r.l2, r.l3, c⟩

/-- The six cross products of a square, limbs t1 to t6 (R105, first block; t0 and t7 are 0). -/
def crossProducts (a : Limbs4) : Limbs8 :=
  let (t1, c) := mac 0 a.l0 a.l1 0
  let (t2, c) := mac 0 a.l0 a.l2 c
  let (t3, t4) := mac 0 a.l0 a.l3 c
  let (t3, c) := mac t3 a.l1 a.l2 0
  let (t4, t5) := mac t4 a.l1 a.l3 c
  let (t5, t6) := mac t5 a.l2 a.l3 0
  ⟨0, t1, t2, t3, t4, t5, t6, 0⟩

/-- The one-bit left shift of limbs t1 to t6 into t1 to t7 (R105, second block). -/
def doubleLimbs (t : Limbs8) : Limbs8 :=
  ⟨t.t0,
    t.t1 <<< 1,
    (t.t2 <<< 1) ||| (t.t1 >>> 63),
    (t.t3 <<< 1) ||| (t.t2 >>> 63),
    (t.t4 <<< 1) ||| (t.t3 >>> 63),
    (t.t5 <<< 1) ||| (t.t4 >>> 63),
    (t.t6 <<< 1) ||| (t.t5 >>> 63),
    t.t6 >>> 63⟩

/-- The four squares added on the even limbs, the last carry discarded (R105, third block). -/
def addSquares (t : Limbs8) (a : Limbs4) : Limbs8 :=
  let (t0, c) := mac 0 a.l0 a.l0 0
  let (t1, c) := adc 0 t.t1 c
  let (t2, c) := mac t.t2 a.l1 a.l1 c
  let (t3, c) := adc 0 t.t3 c
  let (t4, c) := mac t.t4 a.l2 a.l2 c
  let (t5, c) := adc 0 t.t5 c
  let (t6, c) := mac t.t6 a.l3 a.l3 c
  let (t7, _) := adc 0 t.t7 c
  ⟨t0, t1, t2, t3, t4, t5, t6, t7⟩

/-- `sqrw(a)`, the full square: cross products, doubled, plus the squares (R105). -/
def sqrw (a : Limbs4) : Limbs8 := addSquares (doubleLimbs (crossProducts a)) a

/-- One round of the reducer on the limbs `r[i] … r[i+4]` and the parked carry: `k·q` is added, which clears `r[i]`, and
the carry out of `r[i+4]` is parked (R106, loop body). -/
def redcRound (r : Limbs4) (r4 c2 : Word) : Limbs4 × Word :=
  let k := r.l0 * inv64
  let (_, c) := mac r.l0 k qLimbs.l0 0
  let (r1, c) := mac r.l1 k qLimbs.l1 c
  let (r2, c) := mac r.l2 k qLimbs.l2 c
  let (r3, c) := mac r.l3 k qLimbs.l3 c
  let (r4, c2) := adc r4 c2 c
  (⟨r1, r2, r3, r4⟩, c2)

/-- The four rounds of the reducer: the high four limbs and the final carry, before the last subtraction (R106). -/
def redcRounds (t : Limbs8) : Limbs4 × Word :=
  let (r, c2) := redcRound (lo4 t) t.t4 0
  let (r, c2) := redcRound r t.t5 c2
  let (r, c2) := redcRound r t.t6 c2
  redcRound r t.t7 c2

/-- `redc(t)`, Montgomery reduction of an eight-limb value (R106). -/
def redc (t : Limbs8) : Limbs4 :=
  let (r, c2) := redcRounds t
  csubq r c2

/-- `mmul(a, b) = redc(mulw(a, b))` (R107). -/
def mmul (a b : Limbs4) : Limbs4 := redc (mulw a b)

/-- `msqr(a) = redc(sqrw(a))` (R107). -/
def msqr (a : Limbs4) : Limbs4 := redc (sqrw a)

/-! ### Commands -/

/-- FADD (R110). -/
def execFadd (rd ra rb : ERegNum) (s : State) : Outcome :=
  complete s (writeE s rd (fadd (readE s ra) (readE s rb))) 0

/-- FSUB: the first source minus the second (R111). -/
def execFsub (rd ra rb : ERegNum) (s : State) : Outcome :=
  complete s (writeE s rd (fsub (readE s ra) (readE s rb))) 0

/-- FNEG (R112). -/
def execFneg (rd ra : ERegNum) (s : State) : Outcome :=
  complete s (writeE s rd (fneg (readE s ra))) 0

/-- FDBL: `add(a, a)` (R113). -/
def execFdbl (rd ra : ERegNum) (s : State) : Outcome :=
  complete s (writeE s rd (fadd (readE s ra) (readE s ra))) 0

/-- FMUL (R114). -/
def execFmul (rd ra rb : ERegNum) (s : State) : Outcome :=
  complete s (writeE s rd (mmul (readE s ra) (readE s rb))) 0

/-- FSQR (R115). -/
def execFsqr (rd ra : ERegNum) (s : State) : Outcome :=
  complete s (writeE s rd (msqr (readE s ra))) 0

/-- MULW (R116). -/
def execMulw (rd : WRegNum) (ra rb : ERegNum) (s : State) : Outcome :=
  complete s (writeW s rd (mulw (readE s ra) (readE s rb))) 0

/-- SQRW (R117). -/
def execSqrw (rd : WRegNum) (ra : ERegNum) (s : State) : Outcome :=
  complete s (writeW s rd (sqrw (readE s ra))) 0

/-- MRED: absent when the high half is not below q (R118). -/
def execMred (rd : ERegNum) (ra : WRegNum) (s : State) : Outcome :=
  complete s (deliver s rd (ltq (hi4 (readW s ra))) (redc (readW s ra))) 0

end Sys2Proof.Machine
end

