-- ==== Sys2Proof/Machine/Codec.lean ====
section
/-! DEFINITION. The canonical codec and data movement (`42_codec.md`). `dec32` and the lanes stand in `Operands`. -/

namespace Sys2Proof.Machine

/-! ### Functions -/

/-- `canon(a)`, the canonical limbs of a stored element: reduction with the high four limbs zero (R131). -/
def canon (a : Limbs4) : Limbs4 := redc ⟨a.l0, a.l1, a.l2, a.l3, 0, 0, 0, 0⟩

/-- `from_bytes(l)`: is the value below q, and its stored form (R132). -/
def fromBytes (l : Limbs4) : Bool × Limbs4 := (ltq l, mmul l romR2)

/-- `from_small(v)` (R133). -/
def fromSmall (v : Word) : Limbs4 := mmul ⟨v, 0, 0, 0⟩ romR2

/-- `from_wide(w) = d0·R² + d1·R³` on the two halves (R134). -/
def fromWide (w : Limbs8) : Limbs4 := fadd (mmul (lo4 w) romR2) (mmul (hi4 w) romR3)

/-! ### Commands -/

/-- LDB: absent when the 32 bytes encode an integer that is not below q (R135). -/
def execLdb (rd : ERegNum) (s : State) : Outcome :=
  let (ok, r) := fromBytes (dec32 s.din)
  complete s (deliver s rd ok r) 0

/-- STB: no state changes (R136). -/
def execStb (ra : ERegNum) (s : State) : Outcome :=
  complete s s (driveElem (canon (readE s ra)))

/-- LDI (R137). -/
def execLdi (rd : ERegNum) (s : State) : Outcome :=
  complete s (writeE s rd (fromSmall (limbLane s.din 0))) 0

/-- LDRAW: the limbs are the stored value; absent when they are not below q (R138). -/
def execLdraw (rd : ERegNum) (s : State) : Outcome :=
  complete s (deliver s rd (ltq (dec32 s.din)) (dec32 s.din)) 0

/-- LDC (R139). The decoder lets no index above 4 through (`30_encoding.md` R66); on one, the IllegalCommand entry is the
model's choice (log 7). -/
def execLdc (rd : ERegNum) (c : BitVec 3) (s : State) : Outcome :=
  match romRead c with
  | some v => complete s (writeE s rd v) 0
  | none => raiseFault .illegalCommand s

/-- LDW (R141). -/
def execLdw (rd : WRegNum) (s : State) : Outcome :=
  complete s (writeW s rd (decWide s.din)) 0

/-- STW: no state changes (R142). -/
def execStw (ra : WRegNum) (s : State) : Outcome :=
  complete s s (driveWide (readW s ra))

/-- FWIDE (R143). -/
def execFwide (rd : ERegNum) (ra : WRegNum) (s : State) : Outcome :=
  complete s (writeE s rd (fromWide (readW s ra))) 0

end Sys2Proof.Machine
end

