-- ==== Sys2Proof/Machine/ConstantTime.lean ====
section
/-! DEFINITION. Comparison and selection (`44_constant_time.md`). -/

namespace Sys2Proof.Machine

/-! ### Functions -/

/-- `cteq(a, b)`: the and of the four limb equalities (R180). -/
def cteq (a b : Limbs4) : Bool :=
  (a.l0 == b.l0) && (a.l1 == b.l1) && (a.l2 == b.l2) && (a.l3 == b.l3)

/-- One limb of the multiplexer: `a ^ (mask & (a ^ b))` (R181). -/
def selLimb (m a b : Word) : Word := a ^^^ (m &&& (a ^^^ b))

/-- `csel(a, b, choice)`: `a` when the choice is 0, `b` when it is 1 (R181). -/
def csel (a b : Limbs4) (choice : Bool) : Limbs4 :=
  let m := mask choice
  ⟨selLimb m a.l0 b.l0, selLimb m a.l1 b.l1, selLimb m a.l2 b.l2, selLimb m a.l3 b.l3⟩

/-- `order(a, b)`: the order of the represented values, not of the stored ones (R182). -/
def order (a b : Limbs4) : OrderResult :=
  let u := val4 (canon a)
  let v := val4 (canon b)
  if u = v then .equal else if u < v then .less else .greater

/-! ### Commands -/

/-- CTEQ (R183). -/
def execCteq (ra rb : ERegNum) (s : State) : Outcome :=
  complete s (writeT s (cteq (readE s ra) (readE s rb))) 0

/-- CSEL (R184). The decoder does not let mode 3 through (`30_encoding.md` R66); on it, the IllegalCommand entry is the
model's choice (log 7). -/
def execCsel (rd ra rb : ERegNum) (cm : BitVec 2) (s : State) : Outcome :=
  match choiceOf s cm with
  | some choice => complete s (writeE s rd (csel (readE s ra) (readE s rb) choice)) 0
  | none => raiseFault .illegalCommand s

/-- FCMP (R185). -/
def execFcmp (ra rb : ERegNum) (s : State) : Outcome :=
  complete s (writeOrd s (order (readE s ra) (readE s rb))) 0

end Sys2Proof.Machine
end

