-- ==== Sys2Proof/Machine/Exponentiation.lean ====
section
/-! DEFINITION. Modular exponentiation and inversion (`43_exponentiation.md`). -/

namespace Sys2Proof.Machine

/-! ### Functions -/

/-- One iteration of the loop: square, then multiply when the exponent bit is 1 (R160). -/
def powStep (base res : Limbs4) (bit : Bool) : Limbs4 :=
  let sq := msqr res
  if bit then mmul sq base else sq

/-- The iterations over bits n−1 down to 0 of one exponent limb (R160, inner loop). -/
def powBits (base : Limbs4) (limb : Word) : Nat → Limbs4 → Limbs4
  | 0, res => res
  | i + 1, res => powBits base limb i (powStep base res (limb.getLsbD i))

/-- `powv(base, e)`, the exponent's limbs least significant first and read from the most significant down, 64 bits each,
starting from ONE (R160). -/
def powv (base : Limbs4) : List Word → Limbs4
  | [] => romOne
  | limb :: higher => powBits base limb 64 (powv base higher)

/-- `finv(a)`: is the input nonzero, and its power q − 2 (R161). -/
def finv (a : Limbs4) : Bool × Limbs4 := (!cteq a romZero, powv a qMinus2)

/-- The eight limbs of a wide register as an exponent (R162). -/
def exponentLimbs (t : Limbs8) : List Word := [t.t0, t.t1, t.t2, t.t3, t.t4, t.t5, t.t6, t.t7]

/-! ### Commands -/

/-- FPOW (R162). -/
def execFpow (rd ra : ERegNum) (rb : WRegNum) (s : State) : Outcome :=
  complete s (writeE s rd (powv (readE s ra) (exponentLimbs (readW s rb)))) 0

/-- FINV: absent when the input is zero (R163). -/
def execFinv (rd ra : ERegNum) (s : State) : Outcome :=
  let (ok, r) := finv (readE s ra)
  complete s (deliver s rd ok r) 0

end Sys2Proof.Machine
end

