-- ==== Sys2Proof/Machine/System.lean ====
section
/-! DEFINITION. The system commands (`45_system.md`). -/

namespace Sys2Proof.Machine

/-- RDSR: drives a system register and changes no state, in the faulted state too (R200, R201). The decoder lets no
reserved number through (`30_encoding.md` R66); on one, the IllegalCommand entry is the model's choice (log 7). -/
def execRdsr (sr : BitVec 4) (s : State) : Outcome :=
  match sysRead s sr with
  | some v => .next (respond s (driveWord v))
  | none => raiseFault .illegalCommand s

/-- GENR: raises UnsupportedOperation, always (R203). -/
def execGenr (s : State) : Outcome := raiseFault .unsupportedOperation s

/-- ROOTU: raises UnsupportedOperation, always (R204). -/
def execRootu (s : State) : Outcome := raiseFault .unsupportedOperation s

end Sys2Proof.Machine
end

