-- ==== Sys2Proof/Machine/Dispatch.lean ====
section
/-! DEFINITION. The meaning of every command: one arm per constructor of Instr. -/

namespace Sys2Proof.Machine

/-- The transaction of a decoded command, its word and data-in value standing on the port (`20_memory.md` R40, R43). -/
def exec (i : Instr) (s : State) : Host.Outcome State Fault Refusal :=
  match i with
  | .ldb rd => Sys2Proof.Machine.execLdb rd s
  | .stb ra => Sys2Proof.Machine.execStb ra s
  | .ldi rd => Sys2Proof.Machine.execLdi rd s
  | .ldraw rd => Sys2Proof.Machine.execLdraw rd s
  | .ldc rd c => Sys2Proof.Machine.execLdc rd c s
  | .ldw rd => Sys2Proof.Machine.execLdw rd s
  | .stw ra => Sys2Proof.Machine.execStw ra s
  | .fwide rd ra => Sys2Proof.Machine.execFwide rd ra s
  | .fadd rd ra rb => Sys2Proof.Machine.execFadd rd ra rb s
  | .fsub rd ra rb => Sys2Proof.Machine.execFsub rd ra rb s
  | .fneg rd ra => Sys2Proof.Machine.execFneg rd ra s
  | .fdbl rd ra => Sys2Proof.Machine.execFdbl rd ra s
  | .fmul rd ra rb => Sys2Proof.Machine.execFmul rd ra rb s
  | .fsqr rd ra => Sys2Proof.Machine.execFsqr rd ra s
  | .mulw rd ra rb => Sys2Proof.Machine.execMulw rd ra rb s
  | .sqrw rd ra => Sys2Proof.Machine.execSqrw rd ra s
  | .mred rd ra => Sys2Proof.Machine.execMred rd ra s
  | .fpow rd ra rb => Sys2Proof.Machine.execFpow rd ra rb s
  | .finv rd ra => Sys2Proof.Machine.execFinv rd ra s
  | .cteq ra rb => Sys2Proof.Machine.execCteq ra rb s
  | .csel rd ra rb cm => Sys2Proof.Machine.execCsel rd ra rb cm s
  | .fcmp ra rb => Sys2Proof.Machine.execFcmp ra rb s
  | .rdsr sr => Sys2Proof.Machine.execRdsr sr s
  | .genr => Sys2Proof.Machine.execGenr s
  | .rootu => Sys2Proof.Machine.execRootu s

end Sys2Proof.Machine
end

