-- ==== Sys2Proof/Machine/Transaction.lean ====
section
/-! DEFINITION. The transaction (`20_memory.md` R40) and the host's moves: what one step does. -/

namespace Sys2Proof.Machine

/-- One command from issue to response: it is latched and decoded; a word the decoder accepts is executed, any other is an
illegal command (`30_encoding.md` R62, R67). In the faulted state both ways ignore every word but a legal RDSR (R43). -/
def transact (c : Command) (s : State) : Outcome :=
  let s := latch c s
  match decode c.cmd with
  | .ok i => exec i s
  | .error _ => raiseFault .illegalCommand s

/-- One move of the host. With none to make the block is idle and keeps all state (`60_exceptions.md` R233). A command in
flight at a reset is abandoned: it has no effect and no response (`70_reset_and_hazards.md` R252). -/
def hostMove (s : State) : Outcome :=
  match s.pending with
  | [] => .next s
  | .reset _ :: rest => .next (applyReset { s with pending := rest })
  | .command c :: rest => transact c { s with pending := rest }

/-- The listing with a command put before the moves the host has still to make. -/
def presentNext (c : Command) (s : State) : State := { s with pending := .command c :: s.pending }

end Sys2Proof.Machine
end

