-- ==== Sys2Proof/Machine/Step.lean ====
section
/-! DEFINITION. The step: the host makes its next move and the block answers (`20_memory.md` R40, R50). -/

namespace Sys2Proof.Machine

/-- One step of the machine (`00_scope.md` section 8, `20_memory.md` R50). -/
def step (s : State) : Host.Outcome State Fault Refusal := hostMove s

/-- The state whose next step runs the instruction word `w`: the word is the host's next command, with DIN 0 (log 1). -/
def State.withFetchWord (s : State) (nbits w : Nat) : State :=
  presentNext { cmd := BitVec.ofNat 32 (w % 2 ^ nbits), din := 0 } s

end Sys2Proof.Machine
end

