-- ==== Sys2Proof/Safety.lean ====
section
/-! DEFINITION. What the claims speak of: the represented value of an element, and the invariants of the state. -/

namespace Sys2Proof.Safety

open Sys2Proof.Machine

/-- R⁻¹ mod q (`41_field_core.md` R106 gives the numeral). -/
def radixInv : Nat := 0xD9E8890D6494EF93897F30C127CFAB5D3BBBD4567FA50C3C80FD22938097C016

/-- The stored form of a represented value, `st(v) = v·R mod q` (`00_scope.md` R3). -/
def st (v : Nat) : Nat := v * Config.radix % Config.q

/-- The represented value of a stored one, `x·R⁻¹ mod q` (`41_field_core.md` introduction). -/
def represented (x : Nat) : Nat := x * radixInv % Config.q

/-- Every element register holds an integer strictly less than q (`10_state.md` R21). -/
abbrev ElementsReduced (s : State) : Prop := ∀ i : ERegNum, val4 (readE s i) < Config.q

/-- STATUS holds only what R24, R26 and R27 let occur: reserved bits 0, ORD not 3, FAULT 0, 1 or 2. -/
abbrev StatusLegal (s : State) : Prop :=
  s.status.getLsbD 3 = false ∧ getField 8 24 s.status = 0 ∧ statusOrd s.status ≠ 3 ∧ (statusFault s.status).toNat ≤ 2

/-- FCMD is 0 when no fault is recorded (`10_state.md` R28). -/
abbrev FcmdClear (s : State) : Prop := statusFault s.status = 0 → s.fcmd = 0

/-- A response on the port shows STATUS as it stands (`20_memory.md` R42). -/
abbrev ResponseCurrent (s : State) : Prop := ∀ r, s.resp = some r → r.rstat = s.status

/-- The control state is legal: STATUS, FCMD and the response together. -/
abbrev ControlLegal (s : State) : Prop := StatusLegal s ∧ FcmdClear s ∧ ResponseCurrent s

/-! ### What a command reads and writes -/

/-- The element register a command writes, if any (`10_state.md` R22). -/
def destE : Instr → Option ERegNum
  | .ldb rd | .ldi rd | .ldraw rd | .ldc rd _ | .fwide rd _ => some rd
  | .fadd rd _ _ | .fsub rd _ _ | .fneg rd _ | .fdbl rd _ | .fmul rd _ _ | .fsqr rd _ | .mred rd _ => some rd
  | .fpow rd _ _ | .finv rd _ | .csel rd _ _ _ => some rd
  | .stb _ | .ldw _ | .stw _ | .mulw _ _ _ | .sqrw _ _ | .cteq _ _ | .fcmp _ _ | .rdsr _ | .genr | .rootu => none

/-- The wide register a command writes, if any (`10_state.md` R23). -/
def destW : Instr → Option WRegNum
  | .ldw rd | .mulw rd _ _ | .sqrw rd _ => some rd
  | .ldb _ | .stb _ | .ldi _ | .ldraw _ | .ldc _ _ | .stw _ | .fwide _ _ => none
  | .fadd _ _ _ | .fsub _ _ _ | .fneg _ _ | .fdbl _ _ | .fmul _ _ _ | .fsqr _ _ | .mred _ _ => none
  | .fpow _ _ _ | .finv _ _ | .cteq _ _ | .csel _ _ _ _ | .fcmp _ _ | .rdsr _ | .genr | .rootu => none

/-- The commands that write T (`10_state.md` R25). -/
def writesT : Instr → Bool
  | .ldb _ | .ldraw _ | .mred _ _ | .finv _ _ | .cteq _ _ => true
  | .stb _ | .ldi _ | .ldc _ _ | .ldw _ | .stw _ | .fwide _ _ => false
  | .fadd _ _ _ | .fsub _ _ _ | .fneg _ _ | .fdbl _ _ | .fmul _ _ _ | .fsqr _ _ | .mulw _ _ _ | .sqrw _ _ => false
  | .fpow _ _ _ | .csel _ _ _ _ | .fcmp _ _ | .rdsr _ | .genr | .rootu => false

/-- How many low bits of DIN a command uses (`20_memory.md` R45). -/
def dinBits : Instr → Nat
  | .ldi _ => 64
  | .ldb _ | .ldraw _ => 256
  | .ldw _ => 512
  | .stb _ | .ldc _ _ | .stw _ | .fwide _ _ => 0
  | .fadd _ _ _ | .fsub _ _ _ | .fneg _ _ | .fdbl _ _ | .fmul _ _ _ | .fsqr _ _ | .mulw _ _ _ | .sqrw _ _ => 0
  | .mred _ _ | .fpow _ _ _ | .finv _ _ | .cteq _ _ | .csel _ _ _ _ | .fcmp _ _ | .rdsr _ | .genr | .rootu => 0

/-- How many low bits of DOUT a command drives (`20_memory.md` R45). -/
def doutBits : Instr → Nat
  | .rdsr _ => 64
  | .stb _ => 256
  | .stw _ => 512
  | .ldb _ | .ldi _ | .ldraw _ | .ldc _ _ | .ldw _ | .fwide _ _ => 0
  | .fadd _ _ _ | .fsub _ _ _ | .fneg _ _ | .fdbl _ _ | .fmul _ _ _ | .fsqr _ _ | .mulw _ _ _ | .sqrw _ _ => 0
  | .mred _ _ | .fpow _ _ _ | .finv _ _ | .cteq _ _ | .csel _ _ _ _ | .fcmp _ _ | .genr | .rootu => 0

/-! ### Frames: what stays as it was between a state and the next -/

/-- The command on the port and the host's listing. -/
abbrev SamePort (s t : State) : Prop := t.cmd = s.cmd ∧ t.din = s.din ∧ t.pending = s.pending ∧ t.k = s.k

/-- Every element register but `rd`. -/
abbrev SameElemsBut (rd : ERegNum) (s t : State) : Prop := ∀ j, j ≠ rd → readE t j = readE s j

/-- Every wide register but `rd`. -/
abbrev SameWidesBut (rd : WRegNum) (s t : State) : Prop := ∀ j, j ≠ rd → readW t j = readW s j

/-- Every bit of STATUS but bits `lo` to `lo + n - 1`. -/
abbrev SameStatusBut (lo n : Nat) (s t : State) : Prop :=
  ∀ j, j < 32 → ¬(lo ≤ j ∧ j < lo + n) → t.status.getLsbD j = s.status.getLsbD j

/-- The response shows STATUS as it now stands and drives nothing on DOUT. -/
abbrev AnsweredNothing (t : State) : Prop := t.resp = some { rstat := t.status, dout := 0 }

/-- No register, no flag, no fault register and no port value changed. -/
abbrev SameRegisters (s t : State) : Prop :=
  t.e = s.e ∧ t.w = s.w ∧ t.status = s.status ∧ t.fcmd = s.fcmd ∧ SamePort s t

/-- Only the element register `rd` changed; DOUT is 0. -/
abbrev OnlyElem (rd : ERegNum) (s t : State) : Prop :=
  SameElemsBut rd s t ∧ t.w = s.w ∧ t.status = s.status ∧ t.fcmd = s.fcmd ∧ SamePort s t ∧ AnsweredNothing t

/-- Only the element register `rd` and T changed; DOUT is 0. -/
abbrev OnlyElemAndT (rd : ERegNum) (s t : State) : Prop :=
  SameElemsBut rd s t ∧ t.w = s.w ∧ SameStatusBut 0 1 s t ∧ t.fcmd = s.fcmd ∧ SamePort s t ∧ AnsweredNothing t

/-- Only the wide register `rd` changed; DOUT is 0. -/
abbrev OnlyWide (rd : WRegNum) (s t : State) : Prop :=
  t.e = s.e ∧ SameWidesBut rd s t ∧ t.status = s.status ∧ t.fcmd = s.fcmd ∧ SamePort s t ∧ AnsweredNothing t

/-- Only the status bits `lo` to `lo + n - 1` changed; DOUT is 0. -/
abbrev OnlyStatusField (lo n : Nat) (s t : State) : Prop :=
  t.e = s.e ∧ t.w = s.w ∧ SameStatusBut lo n s t ∧ t.fcmd = s.fcmd ∧ SamePort s t ∧ AnsweredNothing t

/-- Only STATUS.FAULT and FCMD changed, to the code and the command word of a fault; DOUT is 0 (`60_exceptions.md` R224). -/
abbrev OnlyFault (code : BitVec 4) (s t : State) : Prop :=
  statusFault t.status = code ∧ t.fcmd = s.cmd ∧ SameStatusBut 4 4 s t ∧ t.e = s.e ∧ t.w = s.w ∧ SamePort s t ∧
    AnsweredNothing t

/-- The word is an illegal command: the decoder rejects it (`30_encoding.md` R67). -/
abbrev Rejected (w : CmdWord) : Prop := ∃ e, decode w = .error e

end Sys2Proof.Safety
end

