-- ==== Sys2Proof/Certificates/Slice0/Obligations.lean ====
section
/-! DEFINITION. The statements for the provers, from the numbered rules of spec/. "Stored" and "represented" values are
those of `00_scope.md` R3. Where a rule's value is that of the field, the operands are registers below q, which
`ElementsStayReduced` says every run keeps. The clause `SamePort` of the frames, on the port fields and the host's listing,
is the model's form (log 1, log 2) and is stated by itself in `PortFrame`. -/

open Sys2Proof Sys2Proof.Machine Sys2Proof.Safety

/-! ### Reset, the host's moves and the transaction -/

/-- `10_state.md` R37: the value of every piece of state after reset. -/
def Obligations.ResetStateIsZero : Prop :=
  (∀ i, readE State.reset i = ⟨0, 0, 0, 0⟩) ∧ (∀ i, readW State.reset i = ⟨0, 0, 0, 0, 0, 0, 0, 0⟩) ∧
    State.reset.status = 0 ∧ statusT State.reset.status = false ∧ statusOrd State.reset.status = 0 ∧
    statusFault State.reset.status = 0 ∧ State.reset.fcmd = 0

/-- `70_reset_and_hazards.md` R251 and R252: a reset, whether or not it catches a command in flight, leaves every register
at its reset value, and the block, not faulted, then accepts a command. The model's: that no response stands on the port
afterwards (log 3), that the host's listing goes on (log 1), and that a reset move carries the command it abandons (log 5). -/
def Obligations.ResetMoveResets : Prop :=
  ∀ (s : State) (inFlight : Option Command) (rest : List HostMove), s.pending = .reset inFlight :: rest →
    ∃ t, step s = .next t ∧ (∀ i, readE t i = ⟨0, 0, 0, 0⟩) ∧ (∀ i, readW t i = ⟨0, 0, 0, 0, 0, 0, 0, 0⟩) ∧
      t.status = 0 ∧ t.fcmd = 0 ∧ faulted t = false ∧ t.resp = none ∧ t.pending = rest ∧
      ∀ c more, rest = .command c :: more → ∃ u, step t = .next u ∧ u.resp ≠ none

/-- `60_exceptions.md` R233: a block that is not executing a command keeps all state. The model's: that an empty listing
is the idle block (log 1), and that the port keeps the last command and response meanwhile (log 2, log 3). -/
def Obligations.IdleBlockKeepsState : Prop :=
  ∀ s : State, s.pending = [] → step s = .next s

/-- `20_memory.md` R40, `30_encoding.md` R62: when the host's next command decodes, the step is that command's `exec`, with
its word and data on the port, the listing moved on and the index advanced (log 1, log 2). -/
def Obligations.StepRunsDecodedCommand : Prop :=
  ∀ (s : State) (c : Command) (rest : List HostMove) (i : Instr), s.pending = .command c :: rest → decode c.cmd = .ok i →
    step s = exec i { s with cmd := c.cmd, din := c.din, pending := rest, k := s.k + 1 }

/-- `60_exceptions.md` R221: every command word the decoder rejects raises IllegalCommand when the block is not faulted,
and the fault records the whole word. The host's listing is the model's form (log 1, log 2). -/
def Obligations.RejectedWordFaults : Prop :=
  ∀ (s : State) (c : Command) (rest : List HostMove), s.pending = .command c :: rest → Rejected c.cmd →
    faulted s = false → ∃ t, step s = .next t ∧
      OnlyFault 1 { s with cmd := c.cmd, din := c.din, pending := rest, k := s.k + 1 } t

/-- `60_exceptions.md` R224: fault entry writes FAULT and FCMD and nothing else, and its response carries the new FAULT. -/
def Obligations.FaultEntryWritesOnlyFault : Prop :=
  ∀ s : State, faulted s = false →
    (∃ t, raiseFault .illegalCommand s = .next t ∧ OnlyFault 1 s t) ∧
    (∃ t, raiseFault .unsupportedOperation s = .next t ∧ OnlyFault 2 s t)

/-- `60_exceptions.md` R225: in the faulted state every word but a legal RDSR is ignored, and a legal RDSR executes.
The host's listing is the model's form (log 1, log 2). -/
def Obligations.FaultedBlockServesOnlyRdsr : Prop :=
  ∀ (s : State) (c : Command) (rest : List HostMove), s.pending = .command c :: rest → faulted s = true →
    ∃ t, step s = .next t ∧ SameRegisters { s with cmd := c.cmd, din := c.din, pending := rest, k := s.k + 1 } t ∧
      ((∀ sr, decode c.cmd ≠ .ok (.rdsr sr)) → t.resp = some { rstat := s.status, dout := 0 }) ∧
      (∀ sr, decode c.cmd = .ok (.rdsr sr) →
        ∃ v, sysRead s sr = some v ∧ ∃ r, t.resp = some r ∧ r.rstat = s.status ∧ r.dout.toNat = v.toNat)

/-- `20_memory.md` R42: every command, whatever its word and the state, gets one response: RSTAT is STATUS after the
command, and every DOUT bit that no rule drives is 0. The host's listing is the model's form (log 1). -/
def Obligations.EveryCommandIsAnswered : Prop :=
  ∀ (s : State) (c : Command) (rest : List HostMove), s.pending = .command c :: rest →
    ∃ t r, step s = .next t ∧ t.pending = rest ∧ t.resp = some r ∧ r.rstat = t.status ∧
      (∀ i, decode c.cmd = .ok i → r.dout.toNat < 2 ^ doutBits i) ∧ (Rejected c.cmd → r.dout = 0)

/-- `20_memory.md` R42 ("a command never hangs"), `60_exceptions.md` R226: no step of the machine stops. That an
empty listing is a step that changes nothing is the model's (log 1). -/
def Obligations.StepNeverStops : Prop :=
  ∀ s : State, ∃ t, step s = .next t

/-! ### Invariants -/

/-- `10_state.md` R21, R24, R26 to R28, R37: the invariants hold right after reset. The clause on the response is that of
`20_memory.md` R42, and holds because the model has no response at reset (log 3). -/
def Obligations.InvariantsHoldAtReset : Prop :=
  ElementsReduced State.reset ∧ ControlLegal State.reset

/-- `10_state.md` R21: after reset and after every response every element register holds an integer below q. That it
is kept by a step with nothing to do is the model's (log 1). -/
def Obligations.ElementsStayReduced : Prop :=
  ElementsReduced State.reset ∧ ∀ s t : State, ElementsReduced s → step s = .next t → ElementsReduced t

/-- `10_state.md` R24, R26, R27, R28: the reserved bits of STATUS stay 0, ORD is never 3, FAULT is never above 2, FCMD is 0
while no fault is recorded. And a response on the port shows STATUS as it stands: for a step that takes a command this is
`20_memory.md` R42; for a reset step and an idle step it is the model's, which clears the response at a reset and lets the
last one stand until the next (log 3), an empty listing being the idle block (log 1). -/
def Obligations.ControlStateStaysLegal : Prop :=
  ∀ s t : State, ControlLegal s → step s = .next t → ControlLegal t

/-! ### Frames of every command -/

/-- `10_state.md` R22: a command changes no element register but its destination. For a command no word decodes to, it is
the model's (log 7). -/
def Obligations.ElementFileFrame : Prop :=
  ∀ (i : Instr) (s t : State) (j : ERegNum), exec i s = .next t → destE i ≠ some j → readE t j = readE s j

/-- `10_state.md` R23: a command changes no wide register but its destination. For a command no word decodes to, it is the
model's (log 7). -/
def Obligations.WideFileFrame : Prop :=
  ∀ (i : Instr) (s t : State) (j : WRegNum), exec i s = .next t → destW i ≠ some j → readW t j = readW s j

/-- `10_state.md` R25 to R28: T is written by LDB, LDRAW, MRED, FINV and CTEQ alone, ORD by FCMP alone, FAULT and FCMD by
GENR, ROOTU and illegal commands alone, and the reserved bits by none. For a command no word decodes to, it is the model's
(log 7). -/
def Obligations.StatusFrame : Prop :=
  ∀ (i : Instr) (s t : State), exec i s = .next t →
    (writesT i = false → statusT t.status = statusT s.status) ∧
    ((∀ ra rb, i ≠ .fcmp ra rb) → statusOrd t.status = statusOrd s.status) ∧
    (i ≠ .genr → i ≠ .rootu → i.wellFormed = true → statusFault t.status = statusFault s.status ∧ t.fcmd = s.fcmd) ∧
    t.status.getLsbD 3 = s.status.getLsbD 3 ∧ getField 8 24 t.status = getField 8 24 s.status

/-- `20_memory.md` R41(b): the word and the data on the port stand for the whole command. That `exec` leaves the host's
listing alone is the model's (log 1), and so is the meaning of a command no word decodes to (log 7). -/
def Obligations.PortFrame : Prop :=
  ∀ (i : Instr) (s t : State), exec i s = .next t → SamePort s t

/-- `10_state.md` R27, R28: FAULT and FCMD are written by fault entry, only when FAULT is 0, and cleared only by reset; a
step that is neither leaves both as they were, an idle one (log 1) among them. -/
def Obligations.FirstFaultIsKept : Prop :=
  ∀ s t : State, step s = .next t → (∀ f rest, s.pending ≠ .reset f :: rest) →
    (faulted s = true → statusFault t.status = statusFault s.status ∧ t.fcmd = s.fcmd) ∧
    (faulted s = false → faulted t = false → statusFault t.status = statusFault s.status ∧ t.fcmd = s.fcmd) ∧
    (faulted s = false → faulted t = true →
      ∃ c rest, s.pending = .command c :: rest ∧ t.fcmd = c.cmd ∧
        ((statusFault t.status = 1 ∧ Rejected c.cmd) ∨
          (statusFault t.status = 2 ∧ (decode c.cmd = .ok .genr ∨ decode c.cmd = .ok .rootu))))

/-! ### Encoding -/

/-- `30_encoding.md` R60 to R63: decoding the word of a well-formed command gives the command back. -/
def Obligations.DecodeEncodeRoundTrip : Prop :=
  ∀ i : Instr, i.wellFormed = true → decode (encode i) = .ok i

/-- `30_encoding.md` R62, R64, R67: a word the decoder accepts is the word of the well-formed command it decodes to, so no
bit of it goes unread. -/
def Obligations.DecodedWordIsEncoding : Prop :=
  ∀ (w : CmdWord) (i : Instr), decode w = .ok i → i.wellFormed = true ∧ encode i = w

/-- `30_encoding.md` R66: a command whose immediate is not legal is rejected, at the immediate check. -/
def Obligations.IllegalImmediatesRejected : Prop :=
  ∀ i : Instr, i.wellFormed = false → decode (encode i) = .error .illegalImmediate

/-- `30_encoding.md` R62: at most one row of the opcode map matches a word. -/
def Obligations.OpcodeRowsExclusive : Prop :=
  opcodeMap.Pairwise fun a b => ∀ w, ¬(rowMatches w a = true ∧ rowMatches w b = true)

/-- `30_encoding.md` R67: a word whose opcode is not one of the 25 is rejected. -/
def Obligations.UnassignedOpcodesRejected : Prop :=
  ∀ w : CmdWord, (w.extractLsb' 24 8).toNat ∉
      [0x10, 0x11, 0x12, 0x13, 0x14, 0x15, 0x16, 0x17, 0x20, 0x21, 0x22, 0x23, 0x24, 0x25, 0x26, 0x27, 0x28,
        0x30, 0x31, 0x40, 0x41, 0x42, 0x50, 0x58, 0x59] →
    decode w = .error .noMatchingRow

/-- `95_test_vectors.md` section 2.9 and the examples of the command rules: a few words and what they decode to. -/
def Obligations.KnownWordsDecode : Prop :=
  decode 0x10000000#32 = .ok (.ldb 0) ∧ decode 0x15300000#32 = .ok (.ldw 3) ∧
    decode 0x20201000#32 = .ok (.fadd 2 0 1) ∧ decode 0x22210000#32 = .ok (.fneg 2 1) ∧
    decode 0x28230000#32 = .ok (.mred 2 3) ∧ decode 0x30103000#32 = .ok (.fpow 1 0 3) ∧
    decode 0x41123002#32 = .ok (.csel 1 2 3 2) ∧ decode 0x5000000B#32 = .ok (.rdsr 11) ∧
    decode 0x58000000#32 = .ok .genr ∧ decode 0x20801000#32 = .error .noMatchingRow ∧
    decode 0x22211000#32 = .error .noMatchingRow ∧ decode 0x14000005#32 = .error .illegalImmediate

/-! ### Limb arithmetic -/

/-- `40_limb_arithmetic.md` R80, R81, R82 and R85 on every word: `mac` and `adc` lose nothing, `sbb` takes bit 63 of its
borrow in and answers a mask, `ltq` is the range test. -/
def Obligations.LimbPrimitivesAreExact : Prop :=
  ∀ a b c d : Word,
    (mac a b c d).1.toNat + 2 ^ 64 * (mac a b c d).2.toNat = a.toNat + b.toNat * c.toNat + d.toNat ∧
    (adc a b c).1.toNat + 2 ^ 64 * (adc a b c).2.toNat = a.toNat + b.toNat + c.toNat ∧
    (if b.toNat + c.toNat / 2 ^ 63 ≤ a.toNat then
        (sbb a b c).2 = 0 ∧ (sbb a b c).1.toNat = a.toNat - (b.toNat + c.toNat / 2 ^ 63)
      else (sbb a b c).2 = BitVec.allOnes 64 ∧
        (sbb a b c).1.toNat = 2 ^ 64 + a.toNat - (b.toNat + c.toNat / 2 ^ 63)) ∧
    (ltq ⟨a, b, c, d⟩ = true ↔ val4 ⟨a, b, c, d⟩ < Config.q)

/-! ### Field core -/

/-- `41_field_core.md` R110. -/
def Obligations.FaddAddsModQ : Prop :=
  ∀ rd ra rb : ERegNum, decode (pack 0x20 rd ra rb 0) = .ok (.fadd rd ra rb) ∧
    ∀ s : State, faulted s = false → ∃ t, exec (.fadd rd ra rb) s = .next t ∧ OnlyElem rd s t ∧
      (val4 (readE s ra) < Config.q → val4 (readE s rb) < Config.q →
        val4 (readE t rd) = (val4 (readE s ra) + val4 (readE s rb)) % Config.q)

/-- `41_field_core.md` R111. -/
def Obligations.FsubSubtractsModQ : Prop :=
  ∀ rd ra rb : ERegNum, decode (pack 0x21 rd ra rb 0) = .ok (.fsub rd ra rb) ∧
    ∀ s : State, faulted s = false → ∃ t, exec (.fsub rd ra rb) s = .next t ∧ OnlyElem rd s t ∧
      (val4 (readE s ra) < Config.q → val4 (readE s rb) < Config.q →
        val4 (readE t rd) = (val4 (readE s ra) + Config.q - val4 (readE s rb)) % Config.q)

/-- `41_field_core.md` R112: the negation of 0 is 0, otherwise q − x. -/
def Obligations.FnegNegatesModQ : Prop :=
  ∀ rd ra : ERegNum, decode (pack 0x22 rd ra 0 0) = .ok (.fneg rd ra) ∧
    ∀ s : State, faulted s = false → ∃ t, exec (.fneg rd ra) s = .next t ∧ OnlyElem rd s t ∧
      (val4 (readE s ra) < Config.q →
        val4 (readE t rd) = if val4 (readE s ra) = 0 then 0 else Config.q - val4 (readE s ra))

/-- `41_field_core.md` R113: 2x mod q, and in every case what FADD Ed, Ea, Ea does. -/
def Obligations.FdblDoublesModQ : Prop :=
  ∀ rd ra : ERegNum, decode (pack 0x23 rd ra 0 0) = .ok (.fdbl rd ra) ∧
    ∀ s : State, exec (.fdbl rd ra) s = exec (.fadd rd ra ra) s ∧
      (faulted s = false → ∃ t, exec (.fdbl rd ra) s = .next t ∧ OnlyElem rd s t ∧
        (val4 (readE s ra) < Config.q → val4 (readE t rd) = 2 * val4 (readE s ra) % Config.q))

/-- `41_field_core.md` R114 and R107: x·y·R⁻¹ mod q on stored values, the product mod q on represented ones. -/
def Obligations.FmulMultipliesModQ : Prop :=
  ∀ rd ra rb : ERegNum, decode (pack 0x24 rd ra rb 0) = .ok (.fmul rd ra rb) ∧
    ∀ s : State, faulted s = false → ∃ t, exec (.fmul rd ra rb) s = .next t ∧ OnlyElem rd s t ∧
      (val4 (readE s ra) < Config.q → val4 (readE s rb) < Config.q →
        val4 (readE t rd) = val4 (readE s ra) * val4 (readE s rb) * radixInv % Config.q ∧
        represented (val4 (readE t rd)) =
          represented (val4 (readE s ra)) * represented (val4 (readE s rb)) % Config.q)

/-- `41_field_core.md` R115: in every case what FMUL Ed, Ea, Ea does. -/
def Obligations.FsqrSquaresModQ : Prop :=
  ∀ rd ra : ERegNum, decode (pack 0x25 rd ra 0 0) = .ok (.fsqr rd ra) ∧
    ∀ s : State, exec (.fsqr rd ra) s = exec (.fmul rd ra ra) s ∧
      (faulted s = false → ∃ t, exec (.fsqr rd ra) s = .next t ∧ OnlyElem rd s t ∧
        (val4 (readE s ra) < Config.q →
          represented (val4 (readE t rd)) = represented (val4 (readE s ra)) ^ 2 % Config.q))

/-- `41_field_core.md` R116 and R104: the exact integer product of the two stored values, for every register content; on
elements below q², with its high half below q. -/
def Obligations.MulwMultipliesExactly : Prop :=
  ∀ (rd : WRegNum) (ra rb : ERegNum), decode (pack 0x26 rd ra rb 0) = .ok (.mulw rd ra rb) ∧
    ∀ s : State, faulted s = false → ∃ t, exec (.mulw rd ra rb) s = .next t ∧ OnlyWide rd s t ∧
      val8 (readW t rd) = val4 (readE s ra) * val4 (readE s rb) ∧
      (val4 (readE s ra) < Config.q → val4 (readE s rb) < Config.q →
        val8 (readW t rd) < Config.q * Config.q ∧ val4 (hi4 (readW t rd)) < Config.q)

/-- `41_field_core.md` R117 and R105: in every case what MULW Wd, Ea, Ea does. -/
def Obligations.SqrwSquaresExactly : Prop :=
  ∀ (rd : WRegNum) (ra : ERegNum), decode (pack 0x27 rd ra 0 0) = .ok (.sqrw rd ra) ∧
    ∀ s : State, exec (.sqrw rd ra) s = exec (.mulw rd ra ra) s ∧
      (faulted s = false → ∃ t, exec (.sqrw rd ra) s = .next t ∧ OnlyWide rd s t ∧
        val8 (readW t rd) = val4 (readE s ra) ^ 2)

/-- `41_field_core.md` R118: reduced when the wide value is below q·2^256, absent otherwise. -/
def Obligations.MredReducesInRange : Prop :=
  ∀ (rd : ERegNum) (ra : WRegNum), decode (pack 0x28 rd ra 0 0) = .ok (.mred rd ra) ∧
    ∀ s : State, faulted s = false → ∃ t, exec (.mred rd ra) s = .next t ∧ OnlyElemAndT rd s t ∧
      if val8 (readW s ra) < Config.q * 2 ^ 256 then
        statusT t.status = true ∧ val4 (readE t rd) = val8 (readW s ra) * radixInv % Config.q
      else statusT t.status = false ∧ readE t rd = readE s rd

/-- `41_field_core.md` R106: the reducer on every 512-bit value, N' being −q⁻¹ mod 2^256. -/
def Obligations.ReducerIsExact : Prop :=
  ∀ (t : Limbs8) (n : Nat), n < 2 ^ 256 → (n * Config.q + 1) % 2 ^ 256 = 0 →
    (val8 t + val8 t % 2 ^ 256 * n % 2 ^ 256 * Config.q) % 2 ^ 256 = 0 ∧
    val4 (redc t) =
      if Config.q ≤ (val8 t + val8 t % 2 ^ 256 * n % 2 ^ 256 * Config.q) / 2 ^ 256 then
        (val8 t + val8 t % 2 ^ 256 * n % 2 ^ 256 * Config.q) / 2 ^ 256 - Config.q
      else (val8 t + val8 t % 2 ^ 256 * n % 2 ^ 256 * Config.q) / 2 ^ 256

/-- `41_field_core.md` R114: FMUL is MULW and then MRED, except that those also write a wide register and T. -/
def Obligations.MulwThenMredIsFmul : Prop :=
  ∀ (rd ra rb : ERegNum) (k : WRegNum) (s : State), faulted s = false → val4 (readE s ra) < Config.q →
    val4 (readE s rb) < Config.q →
    ∃ t u v, exec (.fmul rd ra rb) s = .next t ∧ exec (.mulw k ra rb) s = .next u ∧ exec (.mred rd k) u = .next v ∧
      (∀ j, readE v j = readE t j) ∧ (∀ j, j ≠ k → readW v j = readW t j) ∧ statusT v.status = true ∧
      SameStatusBut 0 1 t v ∧ v.fcmd = t.fcmd

/-- `10_state.md` R30, R31: the constants are what their definitions say. -/
def Obligations.ConstantsMatchDefinitions : Prop :=
  val4 romZero = 0 ∧ val4 romOne = Config.radix % Config.q ∧ val4 romR2 = Config.radix ^ 2 % Config.q ∧
    val4 romR3 = Config.radix ^ 3 % Config.q ∧ val4 romTwoInv = 2 ^ 255 ∧
    2 * val4 romTwoInv % Config.q = val4 romOne ∧ val4 qLimbs = Config.q ∧
    (Config.q * inv64.toNat + 1) % 2 ^ 64 = 0 ∧ Config.radix * radixInv % Config.q = 1

/-! ### Codec and data movement -/

/-- `42_codec.md` R135: loaded as st(n) when the encoded integer n is below q, absent otherwise; after a load STB returns
the same 32 bytes. -/
def Obligations.LdbLoadsCanonical : Prop :=
  ∀ rd : ERegNum, decode (pack 0x10 rd 0 0 0) = .ok (.ldb rd) ∧
    ∀ s : State, faulted s = false → ∃ t, exec (.ldb rd) s = .next t ∧ OnlyElemAndT rd s t ∧
      if s.din.toNat % 2 ^ 256 < Config.q then
        statusT t.status = true ∧ val4 (readE t rd) = st (s.din.toNat % 2 ^ 256) ∧
          ∃ u r, exec (.stb rd) t = .next u ∧ u.resp = some r ∧ r.dout.toNat = s.din.toNat % 2 ^ 256
      else statusT t.status = false ∧ readE t rd = readE s rd

/-- `42_codec.md` R136: DOUT carries the 32 bytes of the represented value, lane 0 first, and zeros; no state changes. -/
def Obligations.StbStoresCanonical : Prop :=
  ∀ ra : ERegNum, decode (pack 0x11 0 ra 0 0) = .ok (.stb ra) ∧
    ∀ s : State, faulted s = false → ∃ t r, exec (.stb ra) s = .next t ∧ SameRegisters s t ∧ t.resp = some r ∧
      r.rstat = s.status ∧ r.dout.toNat = represented (val4 (readE s ra)) ∧ r.dout.toNat < Config.q ∧
      ∀ k < 32, (byteLane r.dout k).toNat = represented (val4 (readE s ra)) / 2 ^ (8 * k) % 256

/-- `42_codec.md` R137. -/
def Obligations.LdiLoadsSmall : Prop :=
  ∀ rd : ERegNum, decode (pack 0x12 rd 0 0 0) = .ok (.ldi rd) ∧
    ∀ s : State, faulted s = false → ∃ t, exec (.ldi rd) s = .next t ∧ OnlyElem rd s t ∧
      val4 (readE t rd) = st (s.din.toNat % 2 ^ 64)

/-- `42_codec.md` R138: the limbs are the stored value; absent when they are not below q. -/
def Obligations.LdrawLoadsStored : Prop :=
  ∀ rd : ERegNum, decode (pack 0x13 rd 0 0 0) = .ok (.ldraw rd) ∧
    ∀ s : State, faulted s = false → ∃ t, exec (.ldraw rd) s = .next t ∧ OnlyElemAndT rd s t ∧
      if s.din.toNat % 2 ^ 256 < Config.q then
        statusT t.status = true ∧ val4 (readE t rd) = s.din.toNat % 2 ^ 256
      else statusT t.status = false ∧ readE t rd = readE s rd

/-- `42_codec.md` R139 and `10_state.md` R30: ROM[c] for c in 0..4; 5 to 7 are illegal at decode. -/
def Obligations.LdcLoadsConstant : Prop :=
  ∀ (rd : ERegNum) (c : BitVec 3),
    (if c.toNat ≤ 4 then decode (pack 0x14 rd 0 0 c.toNat) = .ok (.ldc rd c)
      else decode (pack 0x14 rd 0 0 c.toNat) = .error .illegalImmediate) ∧
    ∀ s : State, faulted s = false → c.toNat ≤ 4 → ∃ t, exec (.ldc rd c) s = .next t ∧ OnlyElem rd s t ∧
      (c = 0 → val4 (readE t rd) = 0) ∧ (c = 1 → val4 (readE t rd) = Config.radix % Config.q) ∧
      (c = 2 → val4 (readE t rd) = Config.radix ^ 2 % Config.q) ∧
      (c = 3 → val4 (readE t rd) = Config.radix ^ 3 % Config.q) ∧ (c = 4 → val4 (readE t rd) = 2 ^ 255)

/-- `42_codec.md` R141: limb j of W[rd] is limb lane j of DIN. -/
def Obligations.LdwLoadsLanes : Prop :=
  ∀ rd : WRegNum, decode (pack 0x15 rd 0 0 0) = .ok (.ldw rd) ∧
    ∀ s : State, faulted s = false → ∃ t, exec (.ldw rd) s = .next t ∧ OnlyWide rd s t ∧
      val8 (readW t rd) = s.din.toNat

/-- `42_codec.md` R142: DOUT carries the eight limbs; no state changes. -/
def Obligations.StwStoresLanes : Prop :=
  ∀ ra : WRegNum, decode (pack 0x16 0 ra 0 0) = .ok (.stw ra) ∧
    ∀ s : State, faulted s = false → ∃ t r, exec (.stw ra) s = .next t ∧ SameRegisters s t ∧ t.resp = some r ∧
      r.rstat = s.status ∧ r.dout.toNat = val8 (readW s ra)

/-- `42_codec.md` R143 and R134: the stored form of the wide value mod q, for every wide value. -/
def Obligations.FwideConvertsWide : Prop :=
  ∀ (rd : ERegNum) (ra : WRegNum), decode (pack 0x17 rd ra 0 0) = .ok (.fwide rd ra) ∧
    ∀ s : State, faulted s = false → ∃ t, exec (.fwide rd ra) s = .next t ∧ OnlyElem rd s t ∧
      val4 (readE t rd) = st (val8 (readW s ra) % Config.q)

/-- `20_memory.md` R49: STB, STW and RDSR change no state, and issuing a load twice with the same DIN leaves the same state
as issuing it once. -/
def Obligations.DataMovesAreIdempotent : Prop :=
  (∀ (i : Instr) (s t : State), ((∃ ra, i = .stb ra) ∨ (∃ ra, i = .stw ra) ∨ (∃ sr, i = .rdsr sr ∧ i.wellFormed = true)) →
    exec i s = .next t → SameRegisters s t) ∧
  (∀ (i : Instr) (s t u : State),
    ((∃ rd, i = .ldb rd) ∨ (∃ rd, i = .ldi rd) ∨ (∃ rd, i = .ldraw rd) ∨ (∃ rd c, i = .ldc rd c ∧ i.wellFormed = true) ∨
      (∃ rd, i = .ldw rd)) → exec i s = .next t → exec i t = .next u → SameRegisters t u)

/-- `20_memory.md` R45: the bits of DIN a command does not use affect nothing. The model's: that DIN stays on the port (log 2),
and the meaning of a command no word decodes to (log 7). -/
def Obligations.UnusedDinBitsIgnored : Prop :=
  ∀ (i : Instr) (s : State) (d : PortWord), d.toNat % 2 ^ dinBits i = s.din.toNat % 2 ^ dinBits i →
    ∃ t, exec i s = .next t ∧ exec i { s with din := d } = .next { t with din := d }

/-! ### Exponentiation -/

/-- `43_exponentiation.md` R162 and R160: the represented value to the power of the whole wide register, mod q. -/
def Obligations.FpowRaisesToPower : Prop :=
  ∀ (rd ra : ERegNum) (rb : WRegNum), decode (pack 0x30 rd ra rb 0) = .ok (.fpow rd ra rb) ∧
    ∀ s : State, faulted s = false → ∃ t, exec (.fpow rd ra rb) s = .next t ∧ OnlyElem rd s t ∧
      (val4 (readE s ra) < Config.q → val4 (readE t rd) < Config.q ∧
        represented (val4 (readE t rd)) = represented (val4 (readE s ra)) ^ val8 (readW s rb) % Config.q)

/-- `43_exponentiation.md` R163: the inverse of a nonzero element; absent for zero. -/
def Obligations.FinvInverts : Prop :=
  ∀ rd ra : ERegNum, decode (pack 0x31 rd ra 0 0) = .ok (.finv rd ra) ∧
    ∀ s : State, faulted s = false → ∃ t, exec (.finv rd ra) s = .next t ∧ OnlyElemAndT rd s t ∧
      if val4 (readE s ra) = 0 then statusT t.status = false ∧ readE t rd = readE s rd
      else statusT t.status = true ∧ (val4 (readE s ra) < Config.q → val4 (readE t rd) < Config.q ∧
        represented (val4 (readE s ra)) * represented (val4 (readE t rd)) % Config.q = 1)

/-- `43_exponentiation.md` R162, corner cases: for every nonzero base the exponent q − 1 gives ONE, and q − 2 gives what
FINV gives. -/
def Obligations.FermatExponents : Prop :=
  ∀ (rd ra : ERegNum) (rb : WRegNum) (s : State), faulted s = false → val4 (readE s ra) < Config.q →
    val4 (readE s ra) ≠ 0 → ∃ t, exec (.fpow rd ra rb) s = .next t ∧
      (val8 (readW s rb) = Config.q - 1 → readE t rd = romOne) ∧
      (val8 (readW s rb) = Config.q - 2 → ∃ u, exec (.finv rd ra) s = .next u ∧ readE u rd = readE t rd)

/-- `95_test_vectors.md` P7 and `43_exponentiation.md` R163, as a run of two commands: for every nonzero element,
a · invert(a) = 1. The inverse goes to another register, as FINV Ed, Ed would overwrite a; that form is `FinvInverts`. -/
def Obligations.FinvThenFmulIsOne : Prop :=
  ∀ (rd ra re : ERegNum) (s : State), faulted s = false → val4 (readE s ra) < Config.q → val4 (readE s ra) ≠ 0 →
    rd ≠ ra → ∃ t u, exec (.finv rd ra) s = .next t ∧ exec (.fmul re ra rd) t = .next u ∧ readE u re = romOne

/-! ### Comparison and selection -/

/-- `44_constant_time.md` R183 and R180: T is equality of the stored values. -/
def Obligations.CteqComparesStored : Prop :=
  ∀ ra rb : ERegNum, decode (pack 0x40 0 ra rb 0) = .ok (.cteq ra rb) ∧
    ∀ s : State, faulted s = false → ∃ t, exec (.cteq ra rb) s = .next t ∧ OnlyStatusField 0 1 s t ∧
      statusT t.status = decide (val4 (readE s ra) = val4 (readE s rb))

/-- `44_constant_time.md` R184: mode 0 picks the first source, mode 1 the second, mode 2 by T; mode 3 is illegal at
decode. -/
def Obligations.CselSelects : Prop :=
  ∀ rd ra rb : ERegNum,
    (∀ cm : BitVec 2, cm ≠ 3 → decode (pack 0x41 rd ra rb cm.toNat) = .ok (.csel rd ra rb cm)) ∧
    decode (pack 0x41 rd ra rb 3) = .error .illegalImmediate ∧
    ∀ (s : State) (cm : BitVec 2), faulted s = false → cm ≠ 3 → ∃ t, exec (.csel rd ra rb cm) s = .next t ∧
      OnlyElem rd s t ∧ (cm = 0 → readE t rd = readE s ra) ∧ (cm = 1 → readE t rd = readE s rb) ∧
      (cm = 2 → readE t rd = if statusT s.status then readE s rb else readE s ra)

/-- `44_constant_time.md` R185 and R182: ORD is the order of the represented values. -/
def Obligations.FcmpOrdersRepresented : Prop :=
  ∀ ra rb : ERegNum, decode (pack 0x42 0 ra rb 0) = .ok (.fcmp ra rb) ∧
    ∀ s : State, faulted s = false → ∃ t, exec (.fcmp ra rb) s = .next t ∧ OnlyStatusField 1 2 s t ∧
      statusOrd t.status =
        if represented (val4 (readE s ra)) = represented (val4 (readE s rb)) then 0
        else if represented (val4 (readE s ra)) < represented (val4 (readE s rb)) then 1 else 2

/-- `44_constant_time.md` R182: on elements, FCMP says equal exactly when CTEQ does. -/
def Obligations.FcmpAgreesWithCteq : Prop :=
  ∀ (ra rb : ERegNum) (s : State), faulted s = false → val4 (readE s ra) < Config.q → val4 (readE s rb) < Config.q →
    ∃ t u, exec (.fcmp ra rb) s = .next t ∧ exec (.cteq ra rb) s = .next u ∧
      (statusOrd t.status = 0 ↔ statusT u.status = true)

/-! ### System -/

/-- `45_system.md` R201: DOUT[63:0] carries the register and the rest is 0, in the faulted state too; no state changes;
a reserved number is illegal at decode. -/
def Obligations.RdsrReadsSystemRegister : Prop :=
  ∀ sr : BitVec 4,
    (if sr.toNat ∈ [0, 1, 2, 3, 4, 8, 9, 10, 11] then decode (pack 0x50 0 0 0 sr.toNat) = .ok (.rdsr sr)
      else decode (pack 0x50 0 0 0 sr.toNat) = .error .illegalImmediate) ∧
    ∀ s : State, sr.toNat ∈ [0, 1, 2, 3, 4, 8, 9, 10, 11] →
      ∃ t r, exec (.rdsr sr) s = .next t ∧ SameRegisters s t ∧ t.resp = some r ∧ r.rstat = s.status ∧
        (sr = 0 → r.dout.toNat = s.status.toNat) ∧ (sr = 1 → r.dout.toNat = s.fcmd.toNat) ∧
        (sr = 2 → r.dout.toNat = 256) ∧ (sr = 3 → r.dout.toNat = 255) ∧ (sr = 4 → r.dout.toNat = 6) ∧
        (sr = 8 → r.dout.toNat = Config.q % 2 ^ 64) ∧ (sr = 9 → r.dout.toNat = Config.q / 2 ^ 64 % 2 ^ 64) ∧
        (sr = 10 → r.dout.toNat = Config.q / 2 ^ 128 % 2 ^ 64) ∧ (sr = 11 → r.dout.toNat = Config.q / 2 ^ 192)

/-- `45_system.md` R203 and R204: GENR and ROOTU raise UnsupportedOperation, always; each is one word, any other word of
its opcode is an illegal command, and in the faulted state they are ignored like any other. -/
def Obligations.UnsupportedCommandsFault : Prop :=
  (∀ w : CmdWord, decode w = .ok .genr ↔ w = 0x58000000#32) ∧ (∀ w : CmdWord, decode w = .ok .rootu ↔ w = 0x59000000#32) ∧
    (∀ w : CmdWord, w.extractLsb' 24 8 = 0x58#8 ∨ w.extractLsb' 24 8 = 0x59#8 → w ≠ 0x58000000#32 → w ≠ 0x59000000#32 →
      Rejected w) ∧
    ∀ (s : State) (i : Instr), i = .genr ∨ i = .rootu →
      (faulted s = false → ∃ t, exec i s = .next t ∧ OnlyFault 2 s t) ∧
      (faulted s = true → ∃ t, exec i s = .next t ∧ SameRegisters s t ∧ AnsweredNothing t)

/-- `60_exceptions.md` R225 on decoded commands: in the faulted state every command but RDSR is ignored. That a command no
word decodes to is ignored as well is the model's (log 7). -/
def Obligations.FaultedCommandsIgnored : Prop :=
  ∀ (i : Instr) (s : State), faulted s = true → (∀ sr, i = .rdsr sr → i.wellFormed = false) →
    ∃ t, exec i s = .next t ∧ SameRegisters s t ∧ AnsweredNothing t

/-- The model's choice (log 7): `exec` on a command with an illegal immediate, which no word decodes to, takes the
IllegalCommand entry of `60_exceptions.md` R224. What the spec says of such an immediate (`30_encoding.md` R66, at decode) is
`IllegalImmediatesRejected` and `RejectedWordFaults`. -/
def Obligations.IllegalImmediatesFault : Prop :=
  ∀ (i : Instr) (s : State), faulted s = false → i.wellFormed = false → ∃ t, exec i s = .next t ∧ OnlyFault 1 s t

/-- `45_system.md` R201 and `60_exceptions.md` R225, as a run of two commands: after an illegal word, RDSR #FCMD returns
the word that faulted. The host's listing is the model's form (log 1). -/
def Obligations.FaultingWordReadsBack : Prop :=
  ∀ (s : State) (c : Command) (d : PortWord) (rest : List HostMove), faulted s = false → Rejected c.cmd →
    s.pending = .command c :: .command { cmd := 0x50000001#32, din := d } :: rest →
    ∃ t u r, step s = .next t ∧ step t = .next u ∧ u.resp = some r ∧ r.rstat = t.status ∧
      r.dout.toNat = c.cmd.toNat ∧ statusFault u.status = 1

/-- `10_state.md` R36: the result of a command is a function of E, W, STATUS, FCMD, CMD and DIN and nothing else.
The host's listing is the model's form (log 1). -/
def Obligations.ResultIsFunctionOfState : Prop :=
  ∀ (s s' : State) (c : Command) (rest rest' : List HostMove), s.pending = .command c :: rest →
    s'.pending = .command c :: rest' → s.e = s'.e → s.w = s'.w → s.status = s'.status → s.fcmd = s'.fcmd →
    ∃ t t', step s = .next t ∧ step s' = .next t' ∧ t.e = t'.e ∧ t.w = t'.w ∧ t.status = t'.status ∧ t.fcmd = t'.fcmd ∧
      t.resp = t'.resp
end

