-- ==== Sys2Proof/Laws/Flags.lean ====
section
/-! SUPPORT. The fields of STATUS: what a write of one leaves in it and in the others (`10_state.md` R24 to R27). -/

namespace Sys2Proof.Laws

open Sys2Proof.Machine

/-- A field write, bit by bit: the field's bits come from the value, the others are kept. -/
theorem putField_getLsbD (lo n : Nat) (st : CmdWord) (v : BitVec n) (j : Nat) (hj : j < 32) :
    (putField lo n st v).getLsbD j = if lo ≤ j ∧ j < lo + n then v.getLsbD (j - lo) else st.getLsbD j := by
  simp only [putField, BitVec.getLsbD_or, BitVec.getLsbD_and, BitVec.getLsbD_not, BitVec.getLsbD_shiftLeft,
    BitVec.getLsbD_setWidth, BitVec.getLsbD_allOnes, hj, decide_true, Bool.true_and]
  by_cases h1 : lo ≤ j
  · by_cases h2 : j < lo + n
    · have : j - lo < n := by omega
      have h3 : j - lo < 32 := by omega
      simp [h1, h2, this, h3, show ¬ j < lo by omega]
    · have : ¬ j - lo < n := by omega
      have h4 : v.getLsbD (j - lo) = false := BitVec.getLsbD_of_ge _ _ (by omega)
      simp [h2, this, h4]
  · simp [h1, show j < lo by omega]

/-- A field reads back what was written to it. -/
theorem getField_putField_same (lo n : Nat) (st : CmdWord) (v : BitVec n) (h : lo + n ≤ 32) :
    getField lo n (putField lo n st v) = v := by
  apply BitVec.eq_of_getLsbD_eq
  intro j hj
  rw [getField, BitVec.getLsbD_extractLsb', putField_getLsbD _ _ _ _ _ (by omega)]
  simp [hj]

/-- A field is not changed by a write of another. -/
theorem getField_putField_disjoint (lo n lo' n' : Nat) (st : CmdWord) (v : BitVec n') (h : lo + n ≤ 32)
    (hd : lo + n ≤ lo' ∨ lo' + n' ≤ lo) : getField lo n (putField lo' n' st v) = getField lo n st := by
  apply BitVec.eq_of_getLsbD_eq
  intro j hj
  rw [getField, getField, BitVec.getLsbD_extractLsb', BitVec.getLsbD_extractLsb', putField_getLsbD _ _ _ _ _ (by omega),
    if_neg (by omega)]

@[simp] theorem statusT_setT (st : CmdWord) (b : Bool) : statusT (setT st b) = b := by
  rw [statusT, setT, getField_putField_same _ _ _ _ (by decide)]
  cases b <;> rfl
@[simp] theorem statusOrd_setT (st : CmdWord) (b : Bool) : statusOrd (setT st b) = statusOrd st :=
  getField_putField_disjoint _ _ _ _ _ _ (by decide) (by decide)
@[simp] theorem statusFault_setT (st : CmdWord) (b : Bool) : statusFault (setT st b) = statusFault st :=
  getField_putField_disjoint _ _ _ _ _ _ (by decide) (by decide)

@[simp] theorem statusT_setOrd (st : CmdWord) (o : OrderResult) : statusT (setOrd st o) = statusT st := by
  rw [statusT, setOrd, getField_putField_disjoint _ _ _ _ _ _ (by decide) (by decide)]
  rfl
@[simp] theorem statusOrd_setOrd (st : CmdWord) (o : OrderResult) : statusOrd (setOrd st o) = orderNumber o :=
  getField_putField_same _ _ _ _ (by decide)
@[simp] theorem statusFault_setOrd (st : CmdWord) (o : OrderResult) : statusFault (setOrd st o) = statusFault st :=
  getField_putField_disjoint _ _ _ _ _ _ (by decide) (by decide)

@[simp] theorem statusT_setFault (st : CmdWord) (f : FaultCode) : statusT (setFault st f) = statusT st := by
  rw [statusT, setFault, getField_putField_disjoint _ _ _ _ _ _ (by decide) (by decide)]
  rfl
@[simp] theorem statusOrd_setFault (st : CmdWord) (f : FaultCode) : statusOrd (setFault st f) = statusOrd st :=
  getField_putField_disjoint _ _ _ _ _ _ (by decide) (by decide)
@[simp] theorem statusFault_setFault (st : CmdWord) (f : FaultCode) : statusFault (setFault st f) = faultNumber f :=
  getField_putField_same _ _ _ _ (by decide)

theorem faultNumber_ne_zero (f : FaultCode) : faultNumber f ≠ 0 := by cases f <;> decide

theorem orderNumber_ne_three (o : OrderResult) : orderNumber o ≠ 3 := by cases o <;> decide

end Sys2Proof.Laws
end

