-- ==== Sys2Proof/Laws/State.lean ====
section
/-! SUPPORT. What each update of the state leaves in each field: one lemma per field per update. -/

namespace Sys2Proof.Laws

open Sys2Proof.Machine

/-! ### writeE -/

@[simp] theorem writeE_e (s : State) (i : ERegNum) (v : Limbs4) : (writeE s i v).e = s.e.set i v := rfl
@[simp] theorem writeE_w (s : State) (i : ERegNum) (v : Limbs4) : (writeE s i v).w = s.w := rfl
@[simp] theorem writeE_status (s : State) (i : ERegNum) (v : Limbs4) : (writeE s i v).status = s.status := rfl
@[simp] theorem writeE_fcmd (s : State) (i : ERegNum) (v : Limbs4) : (writeE s i v).fcmd = s.fcmd := rfl
@[simp] theorem writeE_cmd (s : State) (i : ERegNum) (v : Limbs4) : (writeE s i v).cmd = s.cmd := rfl
@[simp] theorem writeE_din (s : State) (i : ERegNum) (v : Limbs4) : (writeE s i v).din = s.din := rfl
@[simp] theorem writeE_resp (s : State) (i : ERegNum) (v : Limbs4) : (writeE s i v).resp = s.resp := rfl
@[simp] theorem writeE_pending (s : State) (i : ERegNum) (v : Limbs4) : (writeE s i v).pending = s.pending := rfl
@[simp] theorem writeE_k (s : State) (i : ERegNum) (v : Limbs4) : (writeE s i v).k = s.k := rfl

/-! ### writeW -/

@[simp] theorem writeW_e (s : State) (i : WRegNum) (v : Limbs8) : (writeW s i v).e = s.e := rfl
@[simp] theorem writeW_w (s : State) (i : WRegNum) (v : Limbs8) : (writeW s i v).w = s.w.set i v := rfl
@[simp] theorem writeW_status (s : State) (i : WRegNum) (v : Limbs8) : (writeW s i v).status = s.status := rfl
@[simp] theorem writeW_fcmd (s : State) (i : WRegNum) (v : Limbs8) : (writeW s i v).fcmd = s.fcmd := rfl
@[simp] theorem writeW_cmd (s : State) (i : WRegNum) (v : Limbs8) : (writeW s i v).cmd = s.cmd := rfl
@[simp] theorem writeW_din (s : State) (i : WRegNum) (v : Limbs8) : (writeW s i v).din = s.din := rfl
@[simp] theorem writeW_resp (s : State) (i : WRegNum) (v : Limbs8) : (writeW s i v).resp = s.resp := rfl
@[simp] theorem writeW_pending (s : State) (i : WRegNum) (v : Limbs8) : (writeW s i v).pending = s.pending := rfl
@[simp] theorem writeW_k (s : State) (i : WRegNum) (v : Limbs8) : (writeW s i v).k = s.k := rfl

/-! ### writeT -/

@[simp] theorem writeT_e (s : State) (b : Bool) : (writeT s b).e = s.e := rfl
@[simp] theorem writeT_w (s : State) (b : Bool) : (writeT s b).w = s.w := rfl
@[simp] theorem writeT_status (s : State) (b : Bool) : (writeT s b).status = setT s.status b := rfl
@[simp] theorem writeT_fcmd (s : State) (b : Bool) : (writeT s b).fcmd = s.fcmd := rfl
@[simp] theorem writeT_cmd (s : State) (b : Bool) : (writeT s b).cmd = s.cmd := rfl
@[simp] theorem writeT_din (s : State) (b : Bool) : (writeT s b).din = s.din := rfl
@[simp] theorem writeT_resp (s : State) (b : Bool) : (writeT s b).resp = s.resp := rfl
@[simp] theorem writeT_pending (s : State) (b : Bool) : (writeT s b).pending = s.pending := rfl
@[simp] theorem writeT_k (s : State) (b : Bool) : (writeT s b).k = s.k := rfl

/-! ### writeOrd -/

@[simp] theorem writeOrd_e (s : State) (o : OrderResult) : (writeOrd s o).e = s.e := rfl
@[simp] theorem writeOrd_w (s : State) (o : OrderResult) : (writeOrd s o).w = s.w := rfl
@[simp] theorem writeOrd_status (s : State) (o : OrderResult) : (writeOrd s o).status = setOrd s.status o := rfl
@[simp] theorem writeOrd_fcmd (s : State) (o : OrderResult) : (writeOrd s o).fcmd = s.fcmd := rfl
@[simp] theorem writeOrd_cmd (s : State) (o : OrderResult) : (writeOrd s o).cmd = s.cmd := rfl
@[simp] theorem writeOrd_din (s : State) (o : OrderResult) : (writeOrd s o).din = s.din := rfl
@[simp] theorem writeOrd_resp (s : State) (o : OrderResult) : (writeOrd s o).resp = s.resp := rfl
@[simp] theorem writeOrd_pending (s : State) (o : OrderResult) : (writeOrd s o).pending = s.pending := rfl
@[simp] theorem writeOrd_k (s : State) (o : OrderResult) : (writeOrd s o).k = s.k := rfl

/-! ### respond -/

@[simp] theorem respond_e (s : State) (d : PortWord) : (respond s d).e = s.e := rfl
@[simp] theorem respond_w (s : State) (d : PortWord) : (respond s d).w = s.w := rfl
@[simp] theorem respond_status (s : State) (d : PortWord) : (respond s d).status = s.status := rfl
@[simp] theorem respond_fcmd (s : State) (d : PortWord) : (respond s d).fcmd = s.fcmd := rfl
@[simp] theorem respond_cmd (s : State) (d : PortWord) : (respond s d).cmd = s.cmd := rfl
@[simp] theorem respond_din (s : State) (d : PortWord) : (respond s d).din = s.din := rfl
@[simp] theorem respond_resp (s : State) (d : PortWord) : (respond s d).resp = some ⟨s.status, d⟩ := rfl
@[simp] theorem respond_pending (s : State) (d : PortWord) : (respond s d).pending = s.pending := rfl
@[simp] theorem respond_k (s : State) (d : PortWord) : (respond s d).k = s.k := rfl

/-! ### ignore -/

@[simp] theorem ignore_e (s : State) : (ignore s).e = s.e := rfl
@[simp] theorem ignore_w (s : State) : (ignore s).w = s.w := rfl
@[simp] theorem ignore_status (s : State) : (ignore s).status = s.status := rfl
@[simp] theorem ignore_fcmd (s : State) : (ignore s).fcmd = s.fcmd := rfl
@[simp] theorem ignore_cmd (s : State) : (ignore s).cmd = s.cmd := rfl
@[simp] theorem ignore_din (s : State) : (ignore s).din = s.din := rfl
@[simp] theorem ignore_resp (s : State) : (ignore s).resp = some ⟨s.status, 0⟩ := rfl
@[simp] theorem ignore_pending (s : State) : (ignore s).pending = s.pending := rfl
@[simp] theorem ignore_k (s : State) : (ignore s).k = s.k := rfl

/-! ### latch -/

@[simp] theorem latch_e (c : Command) (s : State) : (latch c s).e = s.e := rfl
@[simp] theorem latch_w (c : Command) (s : State) : (latch c s).w = s.w := rfl
@[simp] theorem latch_status (c : Command) (s : State) : (latch c s).status = s.status := rfl
@[simp] theorem latch_fcmd (c : Command) (s : State) : (latch c s).fcmd = s.fcmd := rfl
@[simp] theorem latch_cmd (c : Command) (s : State) : (latch c s).cmd = c.cmd := rfl
@[simp] theorem latch_din (c : Command) (s : State) : (latch c s).din = c.din := rfl
@[simp] theorem latch_resp (c : Command) (s : State) : (latch c s).resp = s.resp := rfl
@[simp] theorem latch_pending (c : Command) (s : State) : (latch c s).pending = s.pending := rfl
@[simp] theorem latch_k (c : Command) (s : State) : (latch c s).k = s.k + 1 := rfl

/-! ### The register files -/

@[simp] theorem readE_writeE_same (s : State) (i : ERegNum) (v : Limbs4) : readE (writeE s i v) i = v := by
  simp [readE]

@[simp] theorem readE_writeE_ne (s : State) (i j : ERegNum) (v : Limbs4) (h : j ≠ i) :
    readE (writeE s i v) j = readE s j := by
  have : (i : Nat) ≠ j := fun hij => h (Fin.ext hij.symm)
  simp [readE, this]

@[simp] theorem readW_writeW_same (s : State) (i : WRegNum) (v : Limbs8) : readW (writeW s i v) i = v := by
  simp [readW]

@[simp] theorem readW_writeW_ne (s : State) (i j : WRegNum) (v : Limbs8) (h : j ≠ i) :
    readW (writeW s i v) j = readW s j := by
  have : (i : Nat) ≠ j := fun hij => h (Fin.ext hij.symm)
  simp [readW, this]

/-- Reading an element register sees the element file only. -/
theorem readE_congr {s t : State} (h : s.e = t.e) (i : ERegNum) : readE s i = readE t i := by simp [readE, h]

/-- Reading a wide register sees the wide file only. -/
theorem readW_congr {s t : State} (h : s.w = t.w) (i : WRegNum) : readW s i = readW t i := by simp [readW, h]

/-! ### Reset -/

@[simp] theorem applyReset_pending (s : State) : (applyReset s).pending = s.pending := rfl
@[simp] theorem applyReset_k (s : State) : (applyReset s).k = s.k := rfl
@[simp] theorem applyReset_e (s : State) : (applyReset s).e = State.reset.e := rfl
@[simp] theorem applyReset_w (s : State) : (applyReset s).w = State.reset.w := rfl
@[simp] theorem applyReset_status (s : State) : (applyReset s).status = 0 := rfl
@[simp] theorem applyReset_fcmd (s : State) : (applyReset s).fcmd = 0 := rfl
@[simp] theorem applyReset_resp (s : State) : (applyReset s).resp = none := rfl

@[simp] theorem readE_reset (i : ERegNum) : readE State.reset i = zero4 := by simp [readE, State.reset]
@[simp] theorem readW_reset (i : WRegNum) : readW State.reset i = zero8 := by simp [readW, State.reset]

end Sys2Proof.Laws
end

