-- ==== Sys2Proof/Laws/Ops.lean ====
section
/-! SUPPORT. What each shared operation can do, once per operation: it always answers a next state, and this one. -/

namespace Sys2Proof.Laws

open Sys2Proof.Machine

theorem faulted_iff (s : State) : faulted s = true ↔ statusFault s.status ≠ 0 := by
  rw [faulted, bne_iff_ne]

theorem not_faulted_iff (s : State) : faulted s = false ↔ statusFault s.status = 0 := by
  rw [← Bool.not_eq_true, faulted_iff, not_not]

/-- Whether the block is faulted is read from STATUS alone. -/
theorem faulted_congr {s t : State} (h : s.status = t.status) : faulted s = faulted t := by
  rw [faulted, faulted, h]

/-- Completion of a command of an unfaulted block. -/
theorem complete_of_not_faulted {s : State} (h : faulted s = false) (s' : State) (d : PortWord) :
    complete s s' d = .next (respond s' d) := by simp [complete, h]

/-- A faulted block ignores the command (`60_exceptions.md` R225). -/
theorem complete_of_faulted {s : State} (h : faulted s = true) (s' : State) (d : PortWord) :
    complete s s' d = .next (ignore s) := by simp [complete, h]

/-- The two things completion can do. -/
theorem complete_cases {s s' t : State} {d : PortWord} (h : complete s s' d = .next t) :
    (faulted s = true ∧ t = ignore s) ∨ (faulted s = false ∧ t = respond s' d) := by
  cases hf : faulted s
  · rw [complete_of_not_faulted hf, Host.Outcome.next.injEq] at h
    exact Or.inr ⟨rfl, h.symm⟩
  · rw [complete_of_faulted hf, Host.Outcome.next.injEq] at h
    exact Or.inl ⟨rfl, h.symm⟩

/-- Fault entry of an unfaulted block (`60_exceptions.md` R224). -/
theorem raiseFault_of_not_faulted {s : State} (h : faulted s = false) (f : FaultCode) :
    raiseFault f s = .next (respond { s with status := setFault s.status f, fcmd := s.cmd } 0) := by
  simp [raiseFault, h]

/-- Nothing is raised in the faulted state (`60_exceptions.md` R225). -/
theorem raiseFault_of_faulted {s : State} (h : faulted s = true) (f : FaultCode) :
    raiseFault f s = .next (ignore s) := by simp [raiseFault, h]

/-- The two things fault entry can do. -/
theorem raiseFault_cases {f : FaultCode} {s t : State} (h : raiseFault f s = .next t) :
    (faulted s = true ∧ t = ignore s) ∨
      (faulted s = false ∧ t = respond { s with status := setFault s.status f, fcmd := s.cmd } 0) := by
  cases hf : faulted s
  · rw [raiseFault_of_not_faulted hf, Host.Outcome.next.injEq] at h
    exact Or.inr ⟨rfl, h.symm⟩
  · rw [raiseFault_of_faulted hf, Host.Outcome.next.injEq] at h
    exact Or.inl ⟨rfl, h.symm⟩

/-! ### The absent result (`60_exceptions.md` R229) -/

@[simp] theorem deliver_status (s : State) (rd : ERegNum) (ok : Bool) (r : Limbs4) :
    (deliver s rd ok r).status = setT s.status ok := by cases ok <;> rfl
@[simp] theorem deliver_w (s : State) (rd : ERegNum) (ok : Bool) (r : Limbs4) :
    (deliver s rd ok r).w = s.w := by cases ok <;> rfl
@[simp] theorem deliver_fcmd (s : State) (rd : ERegNum) (ok : Bool) (r : Limbs4) :
    (deliver s rd ok r).fcmd = s.fcmd := by cases ok <;> rfl
@[simp] theorem deliver_cmd (s : State) (rd : ERegNum) (ok : Bool) (r : Limbs4) :
    (deliver s rd ok r).cmd = s.cmd := by cases ok <;> rfl
@[simp] theorem deliver_din (s : State) (rd : ERegNum) (ok : Bool) (r : Limbs4) :
    (deliver s rd ok r).din = s.din := by cases ok <;> rfl
@[simp] theorem deliver_resp (s : State) (rd : ERegNum) (ok : Bool) (r : Limbs4) :
    (deliver s rd ok r).resp = s.resp := by cases ok <;> rfl
@[simp] theorem deliver_pending (s : State) (rd : ERegNum) (ok : Bool) (r : Limbs4) :
    (deliver s rd ok r).pending = s.pending := by cases ok <;> rfl
@[simp] theorem deliver_k (s : State) (rd : ERegNum) (ok : Bool) (r : Limbs4) :
    (deliver s rd ok r).k = s.k := by cases ok <;> rfl

theorem readE_deliver_same (s : State) (rd : ERegNum) (ok : Bool) (r : Limbs4) :
    readE (deliver s rd ok r) rd = if ok then r else readE s rd := by
  cases ok
  · rfl
  · exact readE_writeE_same _ _ _

theorem readE_deliver_ne (s : State) (rd j : ERegNum) (ok : Bool) (r : Limbs4) (h : j ≠ rd) :
    readE (deliver s rd ok r) j = readE s j := by
  cases ok
  · rfl
  · exact readE_writeE_ne _ _ _ _ h

end Sys2Proof.Laws
end

