-- ==== Sys2Proof/Laws/Footprint.lean ====
section
/-! SUPPORT. The footprint of each completed write: which frame of `Safety` holds between a state and the next. -/

namespace Sys2Proof.Laws

open Sys2Proof.Machine Sys2Proof.Safety

theorem readE_respond (s : State) (d : PortWord) (i : ERegNum) : readE (respond s d) i = readE s i :=
  readE_congr (respond_e s d) i

theorem readW_respond (s : State) (d : PortWord) (i : WRegNum) : readW (respond s d) i = readW s i :=
  readW_congr (respond_w s d) i

/-- A field write keeps every bit outside the field. -/
theorem putField_getLsbD_outside (lo n : Nat) (st : CmdWord) (v : BitVec n) (j : Nat) (hj : j < 32)
    (h : ¬(lo ≤ j ∧ j < lo + n)) : (putField lo n st v).getLsbD j = st.getLsbD j := by
  rw [putField_getLsbD _ _ _ _ _ hj, if_neg h]

theorem sameRegisters_respond (s : State) (d : PortWord) : SameRegisters s (respond s d) :=
  ⟨rfl, rfl, rfl, rfl, rfl, rfl, rfl, rfl⟩

theorem onlyElem_writeE (s : State) (rd : ERegNum) (v : Limbs4) : OnlyElem rd s (respond (writeE s rd v) 0) :=
  ⟨fun j hj => readE_writeE_ne s rd j v hj, rfl, rfl, rfl, ⟨rfl, rfl, rfl, rfl⟩, rfl⟩

theorem onlyWide_writeW (s : State) (rd : WRegNum) (v : Limbs8) : OnlyWide rd s (respond (writeW s rd v) 0) :=
  ⟨rfl, fun j hj => readW_writeW_ne s rd j v hj, rfl, rfl, ⟨rfl, rfl, rfl, rfl⟩, rfl⟩

theorem onlyElemAndT_deliver (s : State) (rd : ERegNum) (ok : Bool) (v : Limbs4) :
    OnlyElemAndT rd s (respond (deliver s rd ok v) 0) := by
  refine ⟨fun j hj => readE_deliver_ne s rd j ok v hj, ?_, fun j hj h => ?_, ?_, ⟨?_, ?_, ?_, ?_⟩, ?_⟩
  · cases ok <;> rfl
  · rw [respond_status, deliver_status]
    exact putField_getLsbD_outside _ _ _ _ _ hj h
  all_goals cases ok <;> rfl

theorem onlyStatusField_writeT (s : State) (b : Bool) : OnlyStatusField 0 1 s (respond (writeT s b) 0) :=
  ⟨rfl, rfl, fun _ hj h => putField_getLsbD_outside _ _ _ _ _ hj h, rfl, ⟨rfl, rfl, rfl, rfl⟩, rfl⟩

theorem onlyStatusField_writeOrd (s : State) (o : OrderResult) : OnlyStatusField 1 2 s (respond (writeOrd s o) 0) :=
  ⟨rfl, rfl, fun _ hj h => putField_getLsbD_outside _ _ _ _ _ hj h, rfl, ⟨rfl, rfl, rfl, rfl⟩, rfl⟩

theorem onlyFault_entry (s : State) (f : FaultCode) :
    OnlyFault (faultNumber f) s (respond { s with status := setFault s.status f, fcmd := s.cmd } 0) :=
  ⟨by rw [respond_status, statusFault_setFault], rfl, fun _ hj h => putField_getLsbD_outside _ _ _ _ _ hj h, rfl, rfl,
    ⟨rfl, rfl, rfl, rfl⟩, rfl⟩

/-- Delivering a result, present or absent, leaves the block as faulted as it was. -/
theorem faulted_respond_deliver (s : State) (rd : ERegNum) (ok : Bool) (v : Limbs4) (d : PortWord) :
    faulted (respond (deliver s rd ok v) d) = faulted s := by
  unfold faulted
  rw [respond_status, deliver_status, statusFault_setT]

end Sys2Proof.Laws
end

