-- ==== Sys2Proof/Laws/Limb.lean ====
section
/-! SUPPORT. What the limb arithmetic computes, once per function: the value laws of `40_limb_arithmetic.md`. -/

namespace Sys2Proof.Laws

open Sys2Proof.Machine

/-! ### Limb vectors -/

theorem val4_lt (l : Limbs4) : val4 l < 2 ^ 256 := by
  have h0 := l.l0.isLt
  have h1 := l.l1.isLt
  have h2 := l.l2.isLt
  have h3 := l.l3.isLt
  unfold val4
  omega

theorem val8_eq_halves (t : Limbs8) : val8 t = val4 (lo4 t) + 2 ^ 256 * val4 (hi4 t) := by
  simp only [val8, val4, lo4, hi4]
  omega

theorem val8_lt (t : Limbs8) : val8 t < 2 ^ 512 := by
  have h0 := val4_lt (lo4 t)
  have h1 := val4_lt (hi4 t)
  rw [val8_eq_halves]
  omega

theorem val4_injective {a b : Limbs4} (h : val4 a = val4 b) : a = b := by
  have a0 := a.l0.isLt
  have a1 := a.l1.isLt
  have a2 := a.l2.isLt
  have a3 := a.l3.isLt
  have b0 := b.l0.isLt
  have b1 := b.l1.isLt
  have b2 := b.l2.isLt
  have b3 := b.l3.isLt
  unfold val4 at h
  obtain ⟨a0', a1', a2', a3'⟩ := a
  obtain ⟨b0', b1', b2', b3'⟩ := b
  simp only [Limbs4.mk.injEq]
  refine ⟨?_, ?_, ?_, ?_⟩ <;> apply BitVec.eq_of_toNat_eq <;> simp only at * <;> omega

theorem val8_injective {a b : Limbs8} (h : val8 a = val8 b) : a = b := by
  rw [val8_eq_halves, val8_eq_halves] at h
  have al := val4_lt (lo4 a)
  have bl := val4_lt (lo4 b)
  have hl : lo4 a = lo4 b := val4_injective (by omega)
  have hh : hi4 a = hi4 b := val4_injective (by omega)
  simp only [lo4, hi4, Limbs4.mk.injEq] at hl hh
  obtain ⟨_, _, _, _, _, _, _, _⟩ := a
  obtain ⟨_, _, _, _, _, _, _, _⟩ := b
  simp_all

theorem limbOf_toNat (v j : Nat) : (limbOf v j).toNat = v / 2 ^ (64 * j) % 2 ^ 64 := by
  simp [limbOf]

theorem val4_limbs4 (v : Nat) (h : v < 2 ^ 256) : val4 (limbs4 v) = v := by
  simp only [val4, limbs4, limbOf_toNat]
  omega

theorem val8_limbs8 (v : Nat) (h : v < 2 ^ 512) : val8 (limbs8 v) = v := by
  simp only [val8, limbs8, limbOf_toNat]
  omega

theorem val4_qLimbs : val4 qLimbs = Config.q := by decide

/-- The value of a limb list, least significant limb first (R10). -/
def listVal : List Word → Nat
  | [] => 0
  | l :: rest => l.toNat + 2 ^ 64 * listVal rest

theorem listVal_lt : ∀ ls : List Word, listVal ls < 2 ^ (64 * ls.length)
  | [] => by simp [listVal]
  | l :: rest => by
    have ih := listVal_lt rest
    have hl := l.isLt
    have hp : 2 ^ (64 * (rest.length + 1)) = 2 ^ 64 * 2 ^ (64 * rest.length) := by
      rw [← pow_add]
      congr 1
      omega
    rw [listVal, List.length_cons, hp]
    omega

theorem listVal_limbs4 (l : Limbs4) : listVal [l.l0, l.l1, l.l2, l.l3] = val4 l := by
  simp only [listVal, val4]
  omega

theorem listVal_limbs8 (t : Limbs8) : listVal [t.t0, t.t1, t.t2, t.t3, t.t4, t.t5, t.t6, t.t7] = val8 t := by
  simp only [listVal, val8]
  omega

/-! ### Masks -/

@[simp] theorem mask_false : mask false = 0 := rfl
@[simp] theorem mask_true : mask true = BitVec.allOnes 64 := rfl

theorem mask_toNat (b : Bool) : (mask b).toNat = b.toNat * (2 ^ 64 - 1) := by cases b <;> rfl

@[simp] theorem mask_getLsbD_zero (b : Bool) : (mask b).getLsbD 0 = b := by cases b <;> rfl

theorem andWord_mask (l : Limbs4) (b : Bool) : val4 (andWord l (mask b)) = if b then val4 l else 0 := by
  cases b
  · simp [andWord, val4]
  · simp only [andWord, mask_true, BitVec.and_allOnes, if_true]

/-! ### The primitives -/

/-- `mac` is exact (R80). -/
theorem mac_val (acc a b c : Word) :
    (mac acc a b c).1.toNat + 2 ^ 64 * (mac acc a b c).2.toNat = acc.toNat + a.toNat * b.toNat + c.toNat := by
  have h1 := acc.isLt
  have h2 := c.isLt
  have h3 : a.toNat * b.toNat ≤ (2 ^ 64 - 1) * (2 ^ 64 - 1) :=
    Nat.mul_le_mul (by have := a.isLt; omega) (by have := b.isLt; omega)
  simp only [mac, BitVec.toNat_ofNat]
  omega

/-- `adc` is exact for a word-wide carry in (R81). -/
theorem adc_val (a b c : Word) :
    (adc a b c).1.toNat + 2 ^ 64 * (adc a b c).2.toNat = a.toNat + b.toNat + c.toNat := by
  have h1 := a.isLt
  have h2 := b.isLt
  have h3 := c.isLt
  simp only [adc, BitVec.toNat_ofNat]
  omega

/-- `sbb` on a mask borrow in: the borrow out is a mask, and it makes the difference exact (R82). -/
theorem sbb_val (a b : Word) (bin : Bool) :
    ∃ bout : Bool, (sbb a b (mask bin)).2 = mask bout ∧
      (sbb a b (mask bin)).1.toNat + b.toNat + bin.toNat = a.toNat + 2 ^ 64 * bout.toNat := by
  have h1 := a.isLt
  have h2 := b.isLt
  have hb : (mask bin).toNat / 2 ^ 63 = bin.toNat := by cases bin <;> rfl
  refine ⟨decide (a.toNat < b.toNat + bin.toNat), ?_, ?_⟩
  · apply BitVec.eq_of_toNat_eq
    rw [mask_toNat]
    simp only [sbb, hb, BitVec.toNat_ofNat]
    by_cases h : a.toNat < b.toNat + bin.toNat
    · simp only [h, decide_true, Bool.toNat_true]
      omega
    · simp only [h, decide_false, Bool.toNat_false]
      omega
  · simp only [sbb, hb, BitVec.toNat_ofNat]
    by_cases h : a.toNat < b.toNat + bin.toNat
    · simp only [h, decide_true, Bool.toNat_true]
      omega
    · simp only [h, decide_false, Bool.toNat_false]
      omega

/-! ### The four-limb chains -/

/-- `add4` with its carry is the exact sum (R83). -/
theorem add4_val (a b : Limbs4) :
    val4 (add4 a b).1 + 2 ^ 256 * (add4 a b).2.toNat = val4 a + val4 b := by
  unfold add4
  rcases h0 : adc a.l0 b.l0 0 with ⟨d0, c0⟩
  have e0 := adc_val a.l0 b.l0 0
  rw [h0] at e0
  dsimp only at e0 ⊢
  rcases h1 : adc a.l1 b.l1 c0 with ⟨d1, c1⟩
  have e1 := adc_val a.l1 b.l1 c0
  rw [h1] at e1
  dsimp only at e1 ⊢
  rcases h2 : adc a.l2 b.l2 c1 with ⟨d2, c2⟩
  have e2 := adc_val a.l2 b.l2 c1
  rw [h2] at e2
  dsimp only at e2 ⊢
  rcases h3 : adc a.l3 b.l3 c2 with ⟨d3, c3⟩
  have e3 := adc_val a.l3 b.l3 c2
  rw [h3] at e3
  dsimp only at e3 ⊢
  simp only [val4, BitVec.toNat_zero, BitVec.ofNat_eq_ofNat] at *
  omega

/-- The carry of `add4` is one bit (R83). -/
theorem add4_carry_le (a b : Limbs4) : (add4 a b).2.toNat ≤ 1 := by
  have h := add4_val a b
  have ha := val4_lt a
  have hb := val4_lt b
  omega

/-- `add4` without its carry is the sum mod 2^256. -/
theorem add4_fst_val (a b : Limbs4) : val4 (add4 a b).1 = (val4 a + val4 b) % 2 ^ 256 := by
  have h := add4_val a b
  have hd := val4_lt (add4 a b).1
  omega

/-- `sub4`: the difference mod 2^256, and its borrow is `mask(val(a) < val(b))` (R84). -/
theorem sub4_val (a b : Limbs4) :
    (sub4 a b).2 = mask (decide (val4 a < val4 b)) ∧
      val4 (sub4 a b).1 + val4 b = val4 a + 2 ^ 256 * (decide (val4 a < val4 b)).toNat := by
  have key : ∃ bo : Bool, (sub4 a b).2 = mask bo ∧
      val4 (sub4 a b).1 + val4 b = val4 a + 2 ^ 256 * bo.toNat := by
    unfold sub4
    obtain ⟨b0, m0, e0⟩ := sbb_val a.l0 b.l0 false
    rw [mask_false] at m0 e0
    rcases h0 : sbb a.l0 b.l0 0 with ⟨d0, w0⟩
    rw [h0] at m0 e0
    dsimp only at m0 e0 ⊢
    subst m0
    obtain ⟨b1, m1, e1⟩ := sbb_val a.l1 b.l1 b0
    rcases h1 : sbb a.l1 b.l1 (mask b0) with ⟨d1, w1⟩
    rw [h1] at m1 e1
    dsimp only at m1 e1 ⊢
    subst m1
    obtain ⟨b2, m2, e2⟩ := sbb_val a.l2 b.l2 b1
    rcases h2 : sbb a.l2 b.l2 (mask b1) with ⟨d2, w2⟩
    rw [h2] at m2 e2
    dsimp only at m2 e2 ⊢
    subst m2
    obtain ⟨b3, m3, e3⟩ := sbb_val a.l3 b.l3 b2
    rcases h3 : sbb a.l3 b.l3 (mask b2) with ⟨d3, w3⟩
    rw [h3] at m3 e3
    dsimp only at m3 e3 ⊢
    subst m3
    refine ⟨b3, rfl, ?_⟩
    simp only [val4, Bool.toNat_false] at *
    omega
  obtain ⟨bo, hm, he⟩ := key
  have hd := val4_lt (sub4 a b).1
  have ha := val4_lt a
  have hb := val4_lt b
  have : bo = decide (val4 a < val4 b) := by
    cases bo
    · simp only [Bool.toNat_false] at he
      symm
      simp only [decide_eq_false_iff_not]
      omega
    · simp only [Bool.toNat_true] at he
      symm
      simp only [decide_eq_true_eq]
      omega
  subst this
  exact ⟨hm, he⟩

/-- The range validator is 1 exactly when the value is below q (R85). -/
theorem ltq_eq (x : Limbs4) : ltq x = decide (val4 x < Config.q) := by
  rw [ltq, (sub4_val x qLimbs).1, mask_getLsbD_zero, val4_qLimbs]

/-- `csubq` subtracts q from `V = c·2^256 + val(d)` exactly when `V ≥ q`, mod 2^256 (R86). -/
theorem csubq_val (d : Limbs4) (c : Word) (hc : c.toNat ≤ 1) :
    val4 (csubq d c) =
      (if Config.q ≤ c.toNat * 2 ^ 256 + val4 d then c.toNat * 2 ^ 256 + val4 d - Config.q
        else c.toNat * 2 ^ 256 + val4 d) % 2 ^ 256 := by
  have hq : Config.q < 2 ^ 256 := by decide
  have hd := val4_lt d
  obtain ⟨hm, he⟩ := sub4_val d qLimbs
  rw [val4_qLimbs] at hm he
  unfold csubq
  rcases h0 : sub4 d qLimbs with ⟨e, w⟩
  rw [h0] at hm he
  dsimp only at hm he ⊢
  subst hm
  obtain ⟨bo, hm2, he2⟩ := sbb_val c 0 (decide (val4 d < Config.q))
  rcases h1 : sbb c 0 (mask (decide (val4 d < Config.q))) with ⟨f, w⟩
  rw [h1] at hm2 he2
  dsimp only at hm2 he2 ⊢
  subst hm2
  have hf := f.isLt
  have hel := val4_lt e
  rw [add4_fst_val, andWord_mask, val4_qLimbs]
  simp only [BitVec.toNat_zero, BitVec.ofNat_eq_ofNat] at he2
  by_cases h : val4 d < Config.q <;> cases bo <;>
    simp only [h, decide_true, decide_false, Bool.toNat_true, Bool.toNat_false, if_true, if_false,
      Bool.false_eq_true] at * <;> split <;> omega

/-- Below 2q the conditional subtraction is reduction mod q (R86). -/
theorem csubq_val_of_lt (d : Limbs4) (c : Word) (hc : c.toNat ≤ 1)
    (h : c.toNat * 2 ^ 256 + val4 d < 2 * Config.q) :
    val4 (csubq d c) = (c.toNat * 2 ^ 256 + val4 d) % Config.q := by
  have hq : Config.q < 2 ^ 256 := by decide
  rw [csubq_val d c hc]
  split
  · rw [Nat.mod_eq_of_lt (by omega)]
    symm
    rw [Nat.mod_eq_sub_mod (by omega), Nat.mod_eq_of_lt (by omega)]
  · rw [Nat.mod_eq_of_lt (by omega)]
    rw [Nat.mod_eq_of_lt (by omega)]

end Sys2Proof.Laws
end

