-- ==== Sys2Proof/Laws/Lanes.lean ====
section
/-! SUPPORT. The lanes of DIN and DOUT as integers (`20_memory.md` R45, R46, `42_codec.md` R130). -/

namespace Sys2Proof.Laws

open Sys2Proof.Machine

theorem limbLane_toNat (p : PortWord) (j : Nat) : (limbLane p j).toNat = p.toNat / 2 ^ (64 * j) % 2 ^ 64 := by
  rw [limbLane, BitVec.extractLsb'_toNat, Nat.shiftRight_eq_div_pow]

theorem byteLane_toNat (p : PortWord) (k : Nat) : (byteLane p k).toNat = p.toNat / 2 ^ (8 * k) % 2 ^ 8 := by
  rw [byteLane, BitVec.extractLsb'_toNat, Nat.shiftRight_eq_div_pow]

/-- The four limbs of DIN[255:0] hold its value (R130). -/
theorem dec32_val (din : PortWord) : val4 (dec32 din) = din.toNat % 2 ^ 256 := by
  simp only [val4, dec32, limbLane_toNat]
  omega

/-- The eight limbs of DIN hold its value (`42_codec.md` R141). -/
theorem decWide_val (din : PortWord) : val8 (decWide din) = din.toNat := by
  have h := din.isLt
  simp only [val8, decWide, limbLane_toNat]
  omega

/-- DOUT driven with a list of limbs carries the list's value, and zeros above it (R45). -/
theorem driveLimbs_toNat : ∀ ls : List Word, ls.length ≤ 8 → (driveLimbs ls).toNat = listVal ls
  | [], _ => by simp only [driveLimbs, listVal, BitVec.ofNat_eq_ofNat, BitVec.toNat_ofNat, Nat.zero_mod]
  | l :: rest, h => by
    have ih := driveLimbs_toNat rest (by rw [List.length_cons] at h; omega)
    have hl := l.isLt
    have hr := listVal_lt rest
    have hp : 2 ^ (64 * rest.length) ≤ 2 ^ 448 :=
      Nat.pow_le_pow_right (by decide) (by rw [List.length_cons] at h; omega)
    rw [driveLimbs, listVal, BitVec.toNat_or, BitVec.toNat_shiftLeft, BitVec.toNat_setWidth, Nat.shiftLeft_eq, ih,
      Nat.mod_eq_of_lt (by omega), Nat.mod_eq_of_lt (by omega), Nat.mul_comm, ← Nat.two_pow_add_eq_or_of_lt hl,
      Nat.add_comm]

/-- DOUT driven with a word carries its value and zeros (`45_system.md` R201). -/
theorem driveWord_toNat (v : Word) : (driveWord v).toNat = v.toNat := by
  rw [driveWord, driveLimbs_toNat _ (by simp only [List.length_cons, List.length_nil]; omega)]
  simp only [listVal, Nat.mul_zero, Nat.add_zero]

/-- DOUT driven with an element carries its value and zeros (`42_codec.md` R136). -/
theorem driveElem_toNat (l : Limbs4) : (driveElem l).toNat = val4 l := by
  rw [driveElem, driveLimbs_toNat _ (by simp only [List.length_cons, List.length_nil]; omega), listVal_limbs4]

/-- DOUT driven with a wide value carries it whole (`42_codec.md` R142). -/
theorem driveWide_toNat (t : Limbs8) : (driveWide t).toNat = val8 t := by
  rw [driveWide, driveLimbs_toNat _ (by simp only [List.length_cons, List.length_nil]; omega), listVal_limbs8]

end Sys2Proof.Laws
end

