-- ==== Sys2Proof/Laws/Field.lean ====
section
/-! SUPPORT. What the functions of the field core compute, once per function (`41_field_core.md` R101 to R107). -/

namespace Sys2Proof.Laws

open Sys2Proof.Machine Sys2Proof.Safety

theorem q_lt : Config.q < 2 ^ 256 := by decide
theorem q_pos : 0 < Config.q := by decide
theorem two_q_gt : 2 ^ 256 < 2 * Config.q := by decide
theorem radix_mul_inv : 2 ^ 256 * radixInv % Config.q = 1 := by decide

/-! ### Adder, subtractor, negator -/

/-- `fadd` is addition mod q (R101). -/
theorem fadd_val (a b : Limbs4) (ha : val4 a < Config.q) (hb : val4 b < Config.q) :
    val4 (fadd a b) = (val4 a + val4 b) % Config.q := by
  have hs := add4_val a b
  have hc := add4_carry_le a b
  unfold fadd
  rcases h : add4 a b with ⟨d, c⟩
  rw [h] at hs hc
  dsimp only at hs hc ⊢
  have hV : c.toNat * 2 ^ 256 + val4 d = val4 a + val4 b := by omega
  rw [csubq_val_of_lt d c hc (by omega), hV]

/-- `fsub` is subtraction mod q (R102). -/
theorem fsub_val (a b : Limbs4) (ha : val4 a < Config.q) (hb : val4 b < Config.q) :
    val4 (fsub a b) = (val4 a + Config.q - val4 b) % Config.q := by
  have hq := q_lt
  obtain ⟨hm, he⟩ := sub4_val a b
  unfold fsub
  rcases h : sub4 a b with ⟨d, w⟩
  rw [h] at hm he
  dsimp only at hm he ⊢
  subst hm
  have hd := val4_lt d
  rw [add4_fst_val, andWord_mask, val4_qLimbs]
  by_cases hlt : val4 a < val4 b
  · simp only [hlt, decide_true, Bool.toNat_true, if_true] at he ⊢
    rw [Nat.mod_eq_of_lt (by omega : val4 a + Config.q - val4 b < Config.q)]
    omega
  · simp only [hlt, decide_false, Bool.toNat_false, Bool.false_eq_true, if_false] at he ⊢
    have hr : (val4 a + Config.q - val4 b) % Config.q = val4 a - val4 b := by
      have : val4 a + Config.q - val4 b = val4 a - val4 b + Config.q := by omega
      rw [this, Nat.add_mod_right, Nat.mod_eq_of_lt (by omega)]
    rw [hr]
    omega

theorem limbs_or_eq_zero (a : Limbs4) : (a.l0 ||| a.l1 ||| a.l2 ||| a.l3 = 0) ↔ val4 a = 0 := by
  constructor
  · intro h
    simp only [BitVec.ofNat_eq_ofNat, BitVec.or_eq_zero_iff] at h
    obtain ⟨⟨⟨h0, h1⟩, h2⟩, h3⟩ := h
    simp [val4, h0, h1, h2, h3]
  · intro h
    have : a = ⟨0, 0, 0, 0⟩ := val4_injective (by rw [h]; rfl)
    subst this
    rfl

/-- `fneg` is negation mod q, with zero for zero (R103). -/
theorem fneg_val (a : Limbs4) (ha : val4 a < Config.q) :
    val4 (fneg a) = (Config.q - val4 a) % Config.q := by
  obtain ⟨-, he⟩ := sub4_val qLimbs a
  rw [val4_qLimbs] at he
  simp only [show ¬Config.q < val4 a by omega, decide_false, Bool.toNat_false] at he
  unfold fneg
  dsimp only
  rw [andWord_mask]
  by_cases hz : val4 a = 0
  · have hor := (limbs_or_eq_zero a).mpr hz
    simp [hor, hz]
  · have hor : ¬(a.l0 ||| a.l1 ||| a.l2 ||| a.l3 = 0) := fun h => hz ((limbs_or_eq_zero a).mp h)
    have hne : (a.l0 ||| a.l1 ||| a.l2 ||| a.l3 != 0) = true := by
      rw [bne_iff_ne]
      exact hor
    rw [hne, if_pos rfl, Nat.mod_eq_of_lt (by omega)]
    omega

/-! ### Multiplier -/

theorem mul_val4 (x : Nat) (b : Limbs4) : x * val4 b =
    x * b.l0.toNat + x * b.l1.toNat * 2 ^ 64 + x * b.l2.toNat * 2 ^ 128 + x * b.l3.toNat * 2 ^ 192 := by
  unfold val4
  ring

/-- A row of the product is exact (R104). -/
theorem mulRow_val (acc : Limbs4) (ai : Word) (b : Limbs4) :
    val4 (mulRow acc ai b).1 + 2 ^ 256 * (mulRow acc ai b).2.toNat = val4 acc + ai.toNat * val4 b := by
  rw [mul_val4]
  unfold mulRow
  rcases h0 : mac acc.l0 ai b.l0 0 with ⟨t0, c0⟩
  have e0 := mac_val acc.l0 ai b.l0 0
  rw [h0] at e0
  dsimp only at e0 ⊢
  rcases h1 : mac acc.l1 ai b.l1 c0 with ⟨t1, c1⟩
  have e1 := mac_val acc.l1 ai b.l1 c0
  rw [h1] at e1
  dsimp only at e1 ⊢
  rcases h2 : mac acc.l2 ai b.l2 c1 with ⟨t2, c2⟩
  have e2 := mac_val acc.l2 ai b.l2 c1
  rw [h2] at e2
  dsimp only at e2 ⊢
  rcases h3 : mac acc.l3 ai b.l3 c2 with ⟨t3, c3⟩
  have e3 := mac_val acc.l3 ai b.l3 c2
  rw [h3] at e3
  dsimp only at e3 ⊢
  simp only [val4, BitVec.toNat_zero, BitVec.ofNat_eq_ofNat] at *
  omega

/-- The full product is exact for every pair of 256-bit operands (R104). -/
theorem mulw_val (a b : Limbs4) : val8 (mulw a b) = val4 a * val4 b := by
  unfold mulw
  have e0 := mulRow_val ⟨0, 0, 0, 0⟩ a.l0 b
  rcases h0 : mulRow ⟨0, 0, 0, 0⟩ a.l0 b with ⟨r0, c0⟩
  rw [h0] at e0
  dsimp only at e0 ⊢
  have e1 := mulRow_val ⟨r0.l1, r0.l2, r0.l3, c0⟩ a.l1 b
  rcases h1 : mulRow ⟨r0.l1, r0.l2, r0.l3, c0⟩ a.l1 b with ⟨r1, c1⟩
  rw [h1] at e1
  dsimp only at e1 ⊢
  have e2 := mulRow_val ⟨r1.l1, r1.l2, r1.l3, c1⟩ a.l2 b
  rcases h2 : mulRow ⟨r1.l1, r1.l2, r1.l3, c1⟩ a.l2 b with ⟨r2, c2⟩
  rw [h2] at e2
  dsimp only at e2 ⊢
  have e3 := mulRow_val ⟨r2.l1, r2.l2, r2.l3, c2⟩ a.l3 b
  rcases h3 : mulRow ⟨r2.l1, r2.l2, r2.l3, c2⟩ a.l3 b with ⟨r3, c3⟩
  rw [h3] at e3
  dsimp only at e3 ⊢
  have hx : val4 a * val4 b = a.l0.toNat * val4 b + a.l1.toNat * val4 b * 2 ^ 64 +
      a.l2.toNat * val4 b * 2 ^ 128 + a.l3.toNat * val4 b * 2 ^ 192 := by
    generalize val4 b = y
    unfold val4
    ring
  rw [hx]
  generalize a.l0.toNat * val4 b = p0 at *
  generalize a.l1.toNat * val4 b = p1 at *
  generalize a.l2.toNat * val4 b = p2 at *
  generalize a.l3.toNat * val4 b = p3 at *
  simp only [val4, val8, BitVec.toNat_zero, BitVec.ofNat_eq_ofNat] at *
  omega

/-! ### Squarer -/

/-- One limb of the left shift: the doubled limb with the top bit of the limb below it (R105). -/
theorem shift_limb (x y : Word) :
    ((x <<< 1) ||| (y >>> 63)).toNat = 2 * x.toNat % 2 ^ 64 + y.toNat / 2 ^ 63 := by
  have hy := y.isLt
  have hx : 2 * x.toNat % 2 ^ 64 = 2 ^ 1 * (x.toNat % 2 ^ 63) := by omega
  rw [BitVec.toNat_or, BitVec.toNat_shiftLeft, BitVec.toNat_ushiftRight, Nat.shiftLeft_eq,
    Nat.shiftRight_eq_div_pow, Nat.mul_comm x.toNat, pow_one, hx,
    Nat.two_pow_add_eq_or_of_lt (by omega)]

theorem shift_low (x : Word) : (x <<< 1).toNat = 2 * x.toNat % 2 ^ 64 := by
  rw [BitVec.toNat_shiftLeft, Nat.shiftLeft_eq, pow_one, Nat.mul_comm]

theorem shift_top (y : Word) : (y >>> 63).toNat = y.toNat / 2 ^ 63 := by
  rw [BitVec.toNat_ushiftRight, Nat.shiftRight_eq_div_pow]

/-- The shift doubles a value whose lowest and highest limbs are 0 (R105). -/
theorem doubleLimbs_val (t : Limbs8) (h0 : t.t0 = 0) (h7 : t.t7 = 0) :
    val8 (doubleLimbs t) = 2 * val8 t := by
  have h1 := t.t1.isLt
  have h2 := t.t2.isLt
  have h3 := t.t3.isLt
  have h4 := t.t4.isLt
  have h5 := t.t5.isLt
  have h6 := t.t6.isLt
  simp only [doubleLimbs, val8, shift_limb, shift_low, shift_top, h0, h7, BitVec.toNat_zero,
    BitVec.ofNat_eq_ofNat]
  omega

theorem crossProducts_ends (a : Limbs4) : (crossProducts a).t0 = 0 ∧ (crossProducts a).t7 = 0 :=
  ⟨rfl, rfl⟩

/-- The first block of the square sums the cross products (R105). -/
theorem crossProducts_val (a : Limbs4) :
    val8 (crossProducts a) =
      a.l0.toNat * a.l1.toNat * 2 ^ 64 + a.l0.toNat * a.l2.toNat * 2 ^ 128 +
        (a.l0.toNat * a.l3.toNat + a.l1.toNat * a.l2.toNat) * 2 ^ 192 +
        a.l1.toNat * a.l3.toNat * 2 ^ 256 + a.l2.toNat * a.l3.toNat * 2 ^ 320 := by
  unfold crossProducts
  rcases h0 : mac 0 a.l0 a.l1 0 with ⟨t1, c0⟩
  have e0 := mac_val 0 a.l0 a.l1 0
  rw [h0] at e0
  rcases h1 : mac 0 a.l0 a.l2 c0 with ⟨t2, c1⟩
  have e1 := mac_val 0 a.l0 a.l2 c0
  rw [h1] at e1
  rcases h2 : mac 0 a.l0 a.l3 c1 with ⟨t3, t4⟩
  have e2 := mac_val 0 a.l0 a.l3 c1
  rw [h2] at e2
  rcases h3 : mac t3 a.l1 a.l2 0 with ⟨t3', c2⟩
  have e3 := mac_val t3 a.l1 a.l2 0
  rw [h3] at e3
  rcases h4 : mac t4 a.l1 a.l3 c2 with ⟨t4', t5⟩
  have e4 := mac_val t4 a.l1 a.l3 c2
  rw [h4] at e4
  rcases h5 : mac t5 a.l2 a.l3 0 with ⟨t5', t6⟩
  have e5 := mac_val t5 a.l2 a.l3 0
  rw [h5] at e5
  simp only [h1, h2, h3, h4, h5]
  simp only [val8, BitVec.toNat_zero, BitVec.ofNat_eq_ofNat] at *
  omega

/-- The third block adds the squares; its last carry is what does not fit 512 bits (R105). -/
theorem addSquares_val (t : Limbs8) (a : Limbs4)
    (h : val8 t + (a.l0.toNat * a.l0.toNat + a.l1.toNat * a.l1.toNat * 2 ^ 128 +
      a.l2.toNat * a.l2.toNat * 2 ^ 256 + a.l3.toNat * a.l3.toNat * 2 ^ 384) < 2 ^ 512) (h0 : t.t0 = 0) :
    val8 (addSquares t a) = val8 t + (a.l0.toNat * a.l0.toNat + a.l1.toNat * a.l1.toNat * 2 ^ 128 +
      a.l2.toNat * a.l2.toNat * 2 ^ 256 + a.l3.toNat * a.l3.toNat * 2 ^ 384) := by
  unfold addSquares
  rcases g0 : mac 0 a.l0 a.l0 0 with ⟨t0, c0⟩
  have e0 := mac_val 0 a.l0 a.l0 0
  rw [g0] at e0
  rcases g1 : adc 0 t.t1 c0 with ⟨t1, c1⟩
  have e1 := adc_val 0 t.t1 c0
  rw [g1] at e1
  rcases g2 : mac t.t2 a.l1 a.l1 c1 with ⟨t2, c2⟩
  have e2 := mac_val t.t2 a.l1 a.l1 c1
  rw [g2] at e2
  rcases g3 : adc 0 t.t3 c2 with ⟨t3, c3⟩
  have e3 := adc_val 0 t.t3 c2
  rw [g3] at e3
  rcases g4 : mac t.t4 a.l2 a.l2 c3 with ⟨t4, c4⟩
  have e4 := mac_val t.t4 a.l2 a.l2 c3
  rw [g4] at e4
  rcases g5 : adc 0 t.t5 c4 with ⟨t5, c5⟩
  have e5 := adc_val 0 t.t5 c4
  rw [g5] at e5
  rcases g6 : mac t.t6 a.l3 a.l3 c5 with ⟨t6, c6⟩
  have e6 := mac_val t.t6 a.l3 a.l3 c5
  rw [g6] at e6
  rcases g7 : adc 0 t.t7 c6 with ⟨t7, c7⟩
  have e7 := adc_val 0 t.t7 c6
  rw [g7] at e7
  simp only [g1, g2, g3, g4, g5, g6, g7]
  simp only [val8, h0, BitVec.toNat_zero, BitVec.ofNat_eq_ofNat] at *
  omega

/-- The full square is exact (R105). -/
theorem sqrw_val (a : Limbs4) : val8 (sqrw a) = val4 a * val4 a := by
  have hx : val4 a * val4 a = 2 * val8 (crossProducts a) + (a.l0.toNat * a.l0.toNat +
      a.l1.toNat * a.l1.toNat * 2 ^ 128 + a.l2.toNat * a.l2.toNat * 2 ^ 256 +
      a.l3.toNat * a.l3.toNat * 2 ^ 384) := by
    have h320 : (2 : Nat) ^ 320 = 2 ^ 64 * 2 ^ 256 := by rw [← pow_add]
    have h384 : (2 : Nat) ^ 384 = 2 ^ 128 * 2 ^ 256 := by rw [← pow_add]
    rw [crossProducts_val, h320, h384]
    unfold val4
    ring
  have hlt : val4 a * val4 a < 2 ^ 512 := by
    have := val4_lt a
    calc val4 a * val4 a < 2 ^ 256 * 2 ^ 256 := Nat.mul_lt_mul'' this this
      _ = 2 ^ 512 := by rw [← pow_add]
  have hd := doubleLimbs_val (crossProducts a) (crossProducts_ends a).1 (crossProducts_ends a).2
  rw [sqrw, addSquares_val _ _ (by rw [hd, ← hx]; exact hlt) rfl, hd, ← hx]

/-- The square is the product with itself, limb for limb (R105). -/
theorem sqrw_eq_mulw (a : Limbs4) : sqrw a = mulw a a :=
  val8_injective (by rw [sqrw_val, mulw_val])

/-! ### Reducer -/

theorem inv64_mul : (1 + inv64.toNat * qLimbs.l0.toNat) % 2 ^ 64 = 0 := by decide

/-- The multiplier of a round clears the round's lowest limb (R106). -/
theorem round_clears (x : Word) :
    (x.toNat + (x * inv64).toNat * qLimbs.l0.toNat) % 2 ^ 64 = 0 := by
  have h := inv64_mul
  rw [BitVec.toNat_mul, Nat.add_mod, Nat.mod_mul_mod, ← Nat.add_mod, Nat.mul_assoc]
  have : x.toNat + x.toNat * (inv64.toNat * qLimbs.l0.toNat) =
      x.toNat * (1 + inv64.toNat * qLimbs.l0.toNat) := by ring
  rw [this, Nat.mul_mod, h]
  simp

/-- A round adds a multiple of q and drops the limb it clears (R106). -/
theorem redcRound_val (r : Limbs4) (r4 c2 : Word) (hc : c2.toNat ≤ 1) :
    2 ^ 64 * (val4 (redcRound r r4 c2).1 + 2 ^ 256 * (redcRound r r4 c2).2.toNat) =
        val4 r + 2 ^ 256 * (r4.toNat + c2.toNat) + (r.l0 * inv64).toNat * Config.q ∧
      (redcRound r r4 c2).2.toNat ≤ 1 := by
  rw [← val4_qLimbs, mul_val4 _ qLimbs]
  have hz := round_clears r.l0
  unfold redcRound
  dsimp only
  generalize r.l0 * inv64 = k at *
  rcases g0 : mac r.l0 k qLimbs.l0 0 with ⟨t0, c0⟩
  have e0 := mac_val r.l0 k qLimbs.l0 0
  rw [g0] at e0
  rcases g1 : mac r.l1 k qLimbs.l1 c0 with ⟨t1, c1⟩
  have e1 := mac_val r.l1 k qLimbs.l1 c0
  rw [g1] at e1
  rcases g2 : mac r.l2 k qLimbs.l2 c1 with ⟨t2, c2'⟩
  have e2 := mac_val r.l2 k qLimbs.l2 c1
  rw [g2] at e2
  rcases g3 : mac r.l3 k qLimbs.l3 c2' with ⟨t3, c3⟩
  have e3 := mac_val r.l3 k qLimbs.l3 c2'
  rw [g3] at e3
  rcases g4 : adc r4 c2 c3 with ⟨t4, c4⟩
  have e4 := adc_val r4 c2 c3
  rw [g4] at e4
  dsimp only
  generalize k.toNat * qLimbs.l0.toNat = p0 at *
  generalize k.toNat * qLimbs.l1.toNat = p1 at *
  generalize k.toNat * qLimbs.l2.toNat = p2 at *
  generalize k.toNat * qLimbs.l3.toNat = p3 at *
  have ht := t0.isLt
  have hr := r4.isLt
  have hcc := c3.isLt
  simp only [val4, BitVec.toNat_zero, BitVec.ofNat_eq_ofNat] at *
  omega

/-- The four rounds: the 257-bit value they leave is `(T + m·q) / 2^256`, exactly, for some `m < 2^256` (R106). -/
theorem redcRounds_val (t : Limbs8) :
    ∃ m < 2 ^ 256, 2 ^ 256 * (val4 (redcRounds t).1 + 2 ^ 256 * (redcRounds t).2.toNat) = val8 t + m * Config.q ∧
      (redcRounds t).2.toNat ≤ 1 := by
  unfold redcRounds
  obtain ⟨e0, b0⟩ := redcRound_val (lo4 t) t.t4 0 (by decide)
  have k0 := ((lo4 t).l0 * inv64).isLt
  rcases g0 : redcRound (lo4 t) t.t4 0 with ⟨r0, c0⟩
  rw [g0] at e0 b0
  dsimp only at e0 b0 ⊢
  obtain ⟨e1, b1⟩ := redcRound_val r0 t.t5 c0 b0
  have k1 := (r0.l0 * inv64).isLt
  rcases g1 : redcRound r0 t.t5 c0 with ⟨r1, c1⟩
  rw [g1] at e1 b1
  dsimp only at e1 b1 ⊢
  obtain ⟨e2, b2⟩ := redcRound_val r1 t.t6 c1 b1
  have k2 := (r1.l0 * inv64).isLt
  rcases g2 : redcRound r1 t.t6 c1 with ⟨r2, c2⟩
  rw [g2] at e2 b2
  dsimp only at e2 b2 ⊢
  obtain ⟨e3, b3⟩ := redcRound_val r2 t.t7 c2 b2
  have k3 := (r2.l0 * inv64).isLt
  generalize ((lo4 t).l0 * inv64).toNat = m0 at *
  generalize (r0.l0 * inv64).toNat = m1 at *
  generalize (r1.l0 * inv64).toNat = m2 at *
  generalize (r2.l0 * inv64).toNat = m3 at *
  refine ⟨m0 + m1 * 2 ^ 64 + m2 * 2 ^ 128 + m3 * 2 ^ 192, by omega, ?_, b3⟩
  have hm : (m0 + m1 * 2 ^ 64 + m2 * 2 ^ 128 + m3 * 2 ^ 192) * Config.q =
      m0 * Config.q + m1 * Config.q * 2 ^ 64 + m2 * Config.q * 2 ^ 128 + m3 * Config.q * 2 ^ 192 := by ring
  rw [hm]
  generalize m0 * Config.q = p0 at *
  generalize m1 * Config.q = p1 at *
  generalize m2 * Config.q = p2 at *
  generalize m3 * Config.q = p3 at *
  have hlo : val8 t = val4 (lo4 t) + 2 ^ 256 * (t.t4.toNat + t.t5.toNat * 2 ^ 64 + t.t6.toNat * 2 ^ 128 +
      t.t7.toNat * 2 ^ 192) := by
    simp only [val8, val4, lo4]
    omega
  simp only [BitVec.toNat_zero, BitVec.ofNat_eq_ofNat] at e0
  omega

/-- The reducer on every 512-bit value: one subtraction of q from `V = (T + m·q) / 2^256` when `V ≥ q` (R106). -/
theorem redc_spec (t : Limbs8) :
    ∃ m < 2 ^ 256, ∃ V, 2 ^ 256 * V = val8 t + m * Config.q ∧
      val4 (redc t) = if Config.q ≤ V then V - Config.q else V := by
  obtain ⟨m, hm, he, hb⟩ := redcRounds_val t
  have hq := q_lt
  have ht := val8_lt t
  refine ⟨m, hm, (redcRounds t).2.toNat * 2 ^ 256 + val4 (redcRounds t).1, by omega, ?_⟩
  have hmq : m * Config.q < 2 ^ 256 * Config.q := Nat.mul_lt_mul_of_pos_right hm q_pos
  have hval : val4 (redc t) = val4 (csubq (redcRounds t).1 (redcRounds t).2) := rfl
  rw [hval, csubq_val _ _ hb]
  generalize m * Config.q = p at *
  split <;> exact Nat.mod_eq_of_lt (by omega)

/-- In its range the reducer divides by the radix, mod q (R106). -/
theorem redc_val (t : Limbs8) (h : val4 (hi4 t) < Config.q) :
    val4 (redc t) = val8 t * radixInv % Config.q := by
  obtain ⟨m, hm, V, hV, hr⟩ := redc_spec t
  have hq := q_pos
  have hmq : m * Config.q < 2 ^ 256 * Config.q := Nat.mul_lt_mul_of_pos_right hm q_pos
  have hlo := val4_lt (lo4 t)
  have ht : val8 t < 2 ^ 256 * Config.q := by
    rw [val8_eq_halves]
    omega
  have hV2 : V < 2 * Config.q := by
    generalize m * Config.q = p at *
    omega
  have hmod : (if Config.q ≤ V then V - Config.q else V) = V % Config.q := by
    split
    · rw [Nat.mod_eq_sub_mod (by omega), Nat.mod_eq_of_lt (by omega)]
    · rw [Nat.mod_eq_of_lt (by omega)]
  rw [hr, hmod]
  have h1 : V ≡ V * (2 ^ 256 * radixInv) [MOD Config.q] := by
    have : 2 ^ 256 * radixInv ≡ 1 [MOD Config.q] := by
      unfold Nat.ModEq
      decide
    simpa using (this.symm.mul_left V)
  have h2 : V * (2 ^ 256 * radixInv) = val8 t * radixInv + Config.q * (m * radixInv) := by
    calc V * (2 ^ 256 * radixInv) = (2 ^ 256 * V) * radixInv := by ring
      _ = _ := by rw [hV]; ring
  rw [h2] at h1
  have h3 := h1
  unfold Nat.ModEq at h3
  rw [h3, Nat.add_mul_mod_self_left]

theorem redc_lt (t : Limbs8) (h : val4 (hi4 t) < Config.q) : val4 (redc t) < Config.q := by
  rw [redc_val t h]
  exact Nat.mod_lt _ q_pos

/-- The high half of a product is below q when one factor is. -/
theorem mulw_hi_lt (a b : Limbs4) (h : val4 a < Config.q ∨ val4 b < Config.q) :
    val4 (hi4 (mulw a b)) < Config.q := by
  have he := mulw_val a b
  rw [val8_eq_halves] at he
  have ha := val4_lt a
  have hb := val4_lt b
  have hp : val4 a * val4 b < 2 ^ 256 * Config.q := by
    rcases h with h | h
    · rw [Nat.mul_comm (2 ^ 256)]
      exact Nat.mul_lt_mul'' h hb
    · exact Nat.mul_lt_mul'' ha h
  by_contra hc
  generalize val4 a * val4 b = p at *
  omega

/-- Montgomery multiplication when one operand is below q (R107). -/
theorem mmul_val (a b : Limbs4) (h : val4 a < Config.q ∨ val4 b < Config.q) :
    val4 (mmul a b) = val4 a * val4 b * radixInv % Config.q := by
  rw [mmul, redc_val _ (mulw_hi_lt a b h), mulw_val]

theorem mmul_lt (a b : Limbs4) (h : val4 a < Config.q ∨ val4 b < Config.q) : val4 (mmul a b) < Config.q := by
  rw [mmul_val a b h]
  exact Nat.mod_lt _ q_pos

/-- Squaring is multiplication by itself, limb for limb (R107). -/
theorem msqr_eq_mmul (a : Limbs4) : msqr a = mmul a a := by rw [msqr, mmul, sqrw_eq_mulw]

end Sys2Proof.Laws
end

