-- ==== Sys2Proof/Laws/Prime.lean ====
section
/-! SUPPORT. The modulus is prime (`00_scope.md` R2): a Lucas certificate, checked by the kernel. -/

namespace Sys2Proof.Laws

/-- `b ^ e mod p` by repeated squaring, for exponents below `2 ^ fuel`. -/
def powMod (p b : Nat) : Nat → Nat → Nat
  | 0, _ => 1 % p
  | fuel + 1, e =>
    let h := powMod p b fuel (e / 2)
    if e % 2 = 1 then h * h % p * b % p else h * h % p

theorem powMod_eq (p b : Nat) : ∀ fuel e, e < 2 ^ fuel → powMod p b fuel e = b ^ e % p
  | 0, e, h => by
    obtain rfl : e = 0 := by omega
    simp [powMod]
  | fuel + 1, e, h => by
    have ih := powMod_eq p b fuel (e / 2) (by omega)
    simp only [powMod, ih]
    have hsq : b ^ (e / 2) % p * (b ^ (e / 2) % p) % p = b ^ (2 * (e / 2)) % p := by
      rw [← Nat.mul_mod, ← pow_add, Nat.two_mul]
    rw [hsq]
    split
    · have he : e = 2 * (e / 2) + 1 := by omega
      rw [Nat.mod_mul_mod, ← pow_succ, ← he]
    · have he : e = 2 * (e / 2) := by omega
      rw [← he]

theorem natCast_pow_eq_one_iff (p a e : Nat) (hp : 1 < p) :
    ((a : ZMod p) ^ e = 1) ↔ a ^ e % p = 1 := by
  rw [← Nat.cast_pow, ← Nat.cast_one, ZMod.natCast_eq_natCast_iff, Nat.ModEq, Nat.mod_eq_of_lt hp]

/-- Lucas' test with the factors of `p − 1` given as a list of primes. -/
theorem prime_of_factors (p a fuel : Nat) (fs : List Nat) (hp : 1 < p) (hfuel : p ≤ 2 ^ fuel)
    (hprod : fs.prod = p - 1) (hprime : ∀ r ∈ fs, r.Prime) (hone : powMod p a fuel (p - 1) = 1)
    (hne : ∀ r ∈ fs, powMod p a fuel ((p - 1) / r) ≠ 1) : p.Prime := by
  refine lucas_primality p (a : ZMod p) ?_ ?_
  · rw [natCast_pow_eq_one_iff _ _ _ hp, ← powMod_eq p a fuel _ (by omega)]
    exact hone
  · intro r hr hdvd hpow
    rw [← hprod, hr.prime.dvd_prod_iff] at hdvd
    obtain ⟨x, hx, hrx⟩ := hdvd
    obtain rfl : r = x := (Nat.prime_dvd_prime_iff_eq hr (hprime x hx)).mp hrx
    have hle : (p - 1) / r ≤ p - 1 := Nat.div_le_self _ _
    rw [natCast_pow_eq_one_iff _ _ _ hp, ← powMod_eq p a fuel _ (by omega)] at hpow
    exact hne r hx hpow

theorem prime_107361793816595537 : Nat.Prime 107361793816595537 :=
  prime_of_factors _ 3 64 [2, 2, 2, 2, 16699, 85831, 4681609] (by decide) (by decide) (by decide)
    (by simp only [List.forall_mem_cons]; norm_num) (by decide +kernel) (by decide +kernel)

theorem prime_44706919 : Nat.Prime 44706919 :=
  prime_of_factors _ 6 32 [2, 3, 797, 9349] (by decide) (by decide) (by decide)
    (by simp only [List.forall_mem_cons]; norm_num) (by decide +kernel) (by decide +kernel)

theorem prime_174723607534414371449 : Nat.Prime 174723607534414371449 :=
  prime_of_factors _ 3 80 [2, 2, 2, 17, 59, 4051, 120233, 44706919] (by decide) (by decide) (by decide)
    (by simp only [List.forall_mem_cons, prime_44706919]; norm_num) (by decide +kernel) (by decide +kernel)

theorem prime_545358713 : Nat.Prime 545358713 :=
  prime_of_factors _ 5 32 [2, 2, 2, 41, 59, 28181] (by decide) (by decide) (by decide)
    (by simp only [List.forall_mem_cons]; norm_num) (by decide +kernel) (by decide +kernel)

theorem prime_297159362677 : Nat.Prime 297159362677 :=
  prime_of_factors _ 2 40 [2, 2, 3, 3, 11, 461, 1627771] (by decide) (by decide) (by decide)
    (by simp only [List.forall_mem_cons]; norm_num) (by decide +kernel) (by decide +kernel)

theorem prime_29047611873442575647497758179 : Nat.Prime 29047611873442575647497758179 :=
  prime_of_factors _ 2 100 [2, 293, 305873, 545358713, 297159362677] (by decide) (by decide) (by decide)
    (by simp only [List.forall_mem_cons, prime_545358713, prime_297159362677]; norm_num)
    (by decide +kernel) (by decide +kernel)

theorem prime_341948486974166000522343609283189 : Nat.Prime 341948486974166000522343609283189 :=
  prime_of_factors _ 2 112 [2, 2, 3, 3, 3, 109, 29047611873442575647497758179] (by decide) (by decide) (by decide)
    (by simp only [List.forall_mem_cons, prime_29047611873442575647497758179]; norm_num)
    (by decide +kernel) (by decide +kernel)

/-- The modulus is prime (R2). -/
theorem q_prime : Nat.Prime Config.q :=
  prime_of_factors _ 7 256
    [2, 2, 2, 2, 2, 2, 3, 149, 631, 107361793816595537, 174723607534414371449, 341948486974166000522343609283189]
    (by decide) (by decide) (by decide)
    (by
      simp only [List.forall_mem_cons, prime_107361793816595537, prime_174723607534414371449,
        prime_341948486974166000522343609283189]
      norm_num)
    (by decide +kernel) (by decide +kernel)

end Sys2Proof.Laws
end

