-- ==== Sys2Proof/Laws/Values.lean ====
section
/-! SUPPORT. Stored and represented values, and what the functions of the codec, of exponentiation and of comparison
compute (`42_codec.md` R130 to R134, `43_exponentiation.md` R160, R161, `44_constant_time.md` R180 to R182). -/

namespace Sys2Proof.Laws

open Sys2Proof.Machine Sys2Proof.Safety

/-! ### Stored and represented values -/

theorem st_lt (v : Nat) : st v < Config.q := Nat.mod_lt _ q_pos

theorem represented_lt (x : Nat) : represented x < Config.q := Nat.mod_lt _ q_pos

theorem st_mod (v : Nat) : st (v % Config.q) = st v := by
  simp only [st, Nat.mod_mul_mod]

theorem radix_modEq : Config.radix * radixInv ≡ 1 [MOD Config.q] := by
  unfold Nat.ModEq
  decide

theorem represented_st (v : Nat) : represented (st v) = v % Config.q := by
  have h := radix_modEq.mul_left v
  rw [mul_one, ← mul_assoc] at h
  unfold represented st
  rw [Nat.mod_mul_mod]
  exact h

theorem st_represented (x : Nat) (hx : x < Config.q) : st (represented x) = x := by
  have h := radix_modEq.mul_left x
  rw [mul_one] at h
  unfold represented st
  rw [Nat.mod_mul_mod, mul_assoc, mul_comm radixInv]
  rw [Nat.ModEq, Nat.mod_eq_of_lt hx] at h
  exact h

theorem st_injective {u v : Nat} (hu : u < Config.q) (hv : v < Config.q) (h : st u = st v) : u = v := by
  have h' := congrArg represented h
  rw [represented_st, represented_st, Nat.mod_eq_of_lt hu, Nat.mod_eq_of_lt hv] at h'
  exact h'

theorem represented_injective {x y : Nat} (hx : x < Config.q) (hy : y < Config.q)
    (h : represented x = represented y) : x = y := by
  rw [← st_represented x hx, ← st_represented y hy, h]

theorem val4_romZero : val4 romZero = st 0 := by decide
theorem val4_romOne : val4 romOne = st 1 := by decide
theorem val4_romR2 : val4 romR2 = Config.radix * Config.radix % Config.q := by decide
theorem val4_romR3 : val4 romR3 = Config.radix * Config.radix * Config.radix % Config.q := by decide
theorem romR2_lt : val4 romR2 < Config.q := by decide
theorem romR3_lt : val4 romR3 < Config.q := by decide

/-- A Montgomery product with the radix inside: `x · (y·R mod q) · R⁻¹ = x·y mod q`. -/
theorem mul_radix_cancel (x y : Nat) :
    x * (y * Config.radix % Config.q) * radixInv % Config.q = x * y % Config.q := by
  have h := radix_modEq.mul_left (x * y)
  rw [mul_one] at h
  have h2 : x * (y * Config.radix % Config.q) * radixInv ≡ x * y * (Config.radix * radixInv) [MOD Config.q] := by
    have : x * (y * Config.radix % Config.q) * radixInv ≡ x * (y * Config.radix) * radixInv [MOD Config.q] :=
      ((Nat.mod_modEq _ _).mul_left x).mul_right radixInv
    refine this.trans ?_
    rw [show x * (y * Config.radix) * radixInv = x * y * (Config.radix * radixInv) by ring]
  exact h2.trans h

/-- The product of stored values is the stored product (R107). -/
theorem mmul_st (a b : Limbs4) (u v : Nat) (ha : val4 a = st u) (hb : val4 b = st v) :
    val4 (mmul a b) = st (u * v) := by
  rw [mmul_val a b (Or.inl (by rw [ha]; exact st_lt u)), ha, hb]
  have hv : st v = v * Config.radix % Config.q := rfl
  rw [hv, mul_radix_cancel]
  unfold st
  rw [Nat.mod_mul_mod]
  ring_nf

theorem msqr_st (a : Limbs4) (u : Nat) (ha : val4 a = st u) : val4 (msqr a) = st (u * u) := by
  rw [msqr_eq_mmul, mmul_st a a u u ha ha]

/-! ### Codec -/

theorem val8_low (a : Limbs4) : val8 ⟨a.l0, a.l1, a.l2, a.l3, 0, 0, 0, 0⟩ = val4 a := by
  have h := val8_eq_halves ⟨a.l0, a.l1, a.l2, a.l3, 0, 0, 0, 0⟩
  have h0 : val4 (hi4 ⟨a.l0, a.l1, a.l2, a.l3, 0, 0, 0, 0⟩) = 0 := show val4 romZero = 0 by decide
  rw [h, h0, Nat.mul_zero, Nat.add_zero]
  rfl

/-- `canon` gives the represented value, whatever the 256-bit input (R131). -/
theorem canon_val (a : Limbs4) : val4 (canon a) = represented (val4 a) := by
  have hhi : val4 (hi4 ⟨a.l0, a.l1, a.l2, a.l3, 0, 0, 0, 0⟩) < Config.q :=
    show val4 romZero < Config.q by decide
  rw [canon, redc_val _ hhi, val8_low, represented]

/-- A product with ROM[R2] is the stored form (R132, R133). -/
theorem mmul_R2_val (l : Limbs4) : val4 (mmul l romR2) = st (val4 l) := by
  rw [mmul_val l romR2 (Or.inr romR2_lt), val4_romR2, mul_radix_cancel]
  rfl

theorem mmul_R3_val (l : Limbs4) : val4 (mmul l romR3) = st (val4 l * Config.radix) := by
  rw [mmul_val l romR3 (Or.inr romR3_lt), val4_romR3, mul_radix_cancel]
  unfold st
  ring_nf

/-- `from_bytes` accepts exactly the integers below q and gives their stored form (R132). -/
theorem fromBytes_val (l : Limbs4) :
    (fromBytes l).1 = decide (val4 l < Config.q) ∧ val4 (fromBytes l).2 = st (val4 l) :=
  ⟨ltq_eq l, mmul_R2_val l⟩

/-- `from_small` gives the stored form (R133). -/
theorem fromSmall_val (v : Word) : val4 (fromSmall v) = st v.toNat := by
  have h : val4 ⟨v, 0, 0, 0⟩ = v.toNat := by simp [val4]
  rw [fromSmall, mmul_R2_val, h]

/-- `from_wide` gives the stored form of the value mod q, for every 512-bit value (R134). -/
theorem fromWide_val (w : Limbs8) : val4 (fromWide w) = st (val8 w) := by
  have h2 := mmul_R2_val (lo4 w)
  have h3 := mmul_R3_val (hi4 w)
  rw [fromWide, fadd_val _ _ (by rw [h2]; exact st_lt _) (by rw [h3]; exact st_lt _), h2, h3, val8_eq_halves]
  unfold st
  have hsum : (val4 (lo4 w) + 2 ^ 256 * val4 (hi4 w)) * Config.radix =
      val4 (lo4 w) * Config.radix + val4 (hi4 w) * Config.radix * Config.radix := by
    rw [show (2 : Nat) ^ 256 = Config.radix from rfl]
    ring
  rw [hsum, Nat.add_mod (val4 (lo4 w) * Config.radix)]

/-! ### Comparison and selection -/

/-- `cteq` is equality of the stored values (R180). -/
theorem cteq_eq (a b : Limbs4) : cteq a b = decide (val4 a = val4 b) := by
  rw [Bool.eq_iff_iff, decide_eq_true_eq]
  simp only [cteq, Bool.and_eq_true, beq_iff_eq]
  constructor
  · rintro ⟨⟨⟨h0, h1⟩, h2⟩, h3⟩
    simp [val4, h0, h1, h2, h3]
  · intro h
    have hab := val4_injective h
    subst hab
    exact ⟨⟨⟨rfl, rfl⟩, rfl⟩, rfl⟩

theorem selLimb_eq (a b : Word) (c : Bool) : selLimb (mask c) a b = if c then b else a := by
  cases c
  · simp [selLimb]
  · simp only [selLimb, mask_true, BitVec.allOnes_and, if_true]
    rw [← BitVec.xor_assoc, BitVec.xor_self, BitVec.zero_xor]

/-- `csel` is the choice it is named for (R181). -/
theorem csel_eq (a b : Limbs4) (c : Bool) : csel a b c = if c then b else a := by
  simp only [csel, selLimb_eq]
  cases c <;> rfl

/-- `order` is the order of the represented values (R182). -/
theorem order_eq (a b : Limbs4) : order a b =
    if represented (val4 a) = represented (val4 b) then .equal
    else if represented (val4 a) < represented (val4 b) then .less else .greater := by
  simp only [order, canon_val]

/-! ### Exponentiation -/

theorem listVal_exponentLimbs (t : Limbs8) : listVal (exponentLimbs t) = val8 t := listVal_limbs8 t

theorem listVal_qMinus2 : listVal qMinus2 = Config.q - 2 := by decide

theorem powStep_val (base res : Limbs4) (u p : Nat) (bit : Bool) (hb : val4 base = st u)
    (hr : val4 res = st (u ^ p)) : val4 (powStep base res bit) = st (u ^ (2 * p + bit.toNat)) := by
  have hs := msqr_st res _ hr
  rw [← pow_add, ← Nat.two_mul] at hs
  cases bit
  · exact hs
  · have hm := mmul_st (msqr res) base _ u hs hb
    rw [← pow_succ] at hm
    exact hm

/-- The loop over the low `n` bits of a limb shifts the prefix read so far left by `n` bits and adds them (R160). -/
theorem powBits_val (base : Limbs4) (limb : Word) (u : Nat) (hb : val4 base = st u) :
    ∀ n res p, val4 res = st (u ^ p) →
      val4 (powBits base limb n res) = st (u ^ (p * 2 ^ n + limb.toNat % 2 ^ n))
  | 0, res, p, hr => by simpa [powBits, Nat.mod_one] using hr
  | n + 1, res, p, hr => by
    have hs := powStep_val base res u p (limb.getLsbD n) hb hr
    have ih := powBits_val base limb u hb n _ _ hs
    simp only [powBits]
    rw [ih]
    congr 2
    have hbit : limb.toNat % 2 ^ (n + 1) = limb.toNat % 2 ^ n + 2 ^ n * (limb.getLsbD n).toNat := by
      rw [Nat.mod_pow_succ, BitVec.getLsbD, Nat.toNat_testBit]
    rw [hbit, pow_succ]
    ring

/-- Square-and-multiply computes the power (R160). -/
theorem powv_val (base : Limbs4) (u : Nat) (hb : val4 base = st u) :
    ∀ e, val4 (powv base e) = st (u ^ listVal e)
  | [] => by simpa [powv, listVal] using val4_romOne
  | limb :: rest => by
    have ih := powv_val base u hb rest
    have h := powBits_val base limb u hb 64 _ _ ih
    simp only [powv, listVal]
    rw [h, Nat.mod_eq_of_lt limb.isLt]
    congr 2
    ring

/-- `finv`: present exactly for a nonzero element, and then the power q − 2 (R161). -/
theorem finv_val (a : Limbs4) (u : Nat) (ha : val4 a = st u) :
    (finv a).1 = decide (val4 a ≠ 0) ∧ val4 (finv a).2 = st (u ^ (Config.q - 2)) := by
  constructor
  · simp only [finv, cteq_eq, show val4 romZero = 0 from rfl, ← decide_not]
  · simp only [finv]
    rw [powv_val a u ha, listVal_qMinus2]

theorem powv_lt (base : Limbs4) (h : val4 base < Config.q) (e : List Word) : val4 (powv base e) < Config.q := by
  rw [powv_val base (represented (val4 base)) (st_represented _ h).symm]
  exact st_lt _

theorem finv_lt (a : Limbs4) (h : val4 a < Config.q) : val4 (finv a).2 < Config.q := powv_lt a h _

/-- Fermat: the power q − 2 inverts every element that is not 0 mod q (R161; the modulus is prime). -/
theorem fermat_inverse (u : Nat) (h : u % Config.q ≠ 0) : u * u ^ (Config.q - 2) % Config.q = 1 := by
  have : Fact (Nat.Prime Config.q) := ⟨q_prime⟩
  have hu : (u : ZMod Config.q) ≠ 0 := by
    intro h0
    rw [ZMod.natCast_eq_zero_iff] at h0
    exact h (Nat.mod_eq_zero_of_dvd h0)
  have hf := ZMod.pow_card_sub_one_eq_one hu
  have he : Config.q - 1 = (Config.q - 2) + 1 := by
    have : 2 ≤ Config.q := q_prime.two_le
    omega
  rw [he] at hf
  rw [← pow_succ', ← natCast_pow_eq_one_iff _ _ _ q_prime.one_lt]
  exact hf

end Sys2Proof.Laws
end

