-- ==== Sys2Proof/Laws/Exec.lean ====
section
/-! SUPPORT. What `exec` can do, once for all 25 commands: each completes with one effect, or reads a system register, or
takes the fault entry. Then what a step can do. -/

namespace Sys2Proof.Laws

open Sys2Proof.Machine Sys2Proof.Safety

/-- The register and flag writes a completed command can make, with what they are bound to. -/
inductive Effect (i : Instr) (s : State) : State → Prop
  /-- No write: a store. -/
  | none : Effect i s s
  /-- An element register, with an element below q when the file held such. -/
  | elem (rd : ERegNum) (v : Limbs4) (hd : destE i = some rd) (hv : ElementsReduced s → val4 v < Config.q) :
      Effect i s (writeE s rd v)
  /-- An element register that may be left alone, and T. -/
  | maybe (rd : ERegNum) (ok : Bool) (v : Limbs4) (hd : destE i = some rd) (ht : writesT i = true)
      (hv : ElementsReduced s → ok = true → val4 v < Config.q) : Effect i s (deliver s rd ok v)
  /-- A wide register. -/
  | wide (rd : WRegNum) (v : Limbs8) (hd : destW i = some rd) : Effect i s (writeW s rd v)
  /-- T alone. -/
  | flagT (b : Bool) (ht : writesT i = true) : Effect i s (writeT s b)
  /-- ORD alone. -/
  | flagOrd (o : OrderResult) (ho : ∃ ra rb, i = .fcmp ra rb) : Effect i s (writeOrd s o)

/-- Which command raises which fault. -/
inductive Raises : Instr → FaultCode → Prop
  | illegal (i : Instr) (h : i.wellFormed = false) : Raises i .illegalCommand
  | genr : Raises .genr .unsupportedOperation
  | rootu : Raises .rootu .unsupportedOperation

/-- The three shapes of a command's meaning. -/
inductive ExecShape (i : Instr) (s : State) : Prop
  | completes (s' : State) (d : PortWord) (he : exec i s = complete s s' d) (hs : Effect i s s')
      (hd : d.toNat < 2 ^ doutBits i)
  | reads (sr : BitVec 4) (v : Word) (hi : i = .rdsr sr) (hw : i.wellFormed = true) (hv : sysRead s sr = some v)
      (he : exec i s = .next (respond s (driveWord v)))
  | raises (f : FaultCode) (hf : Raises i f) (he : exec i s = raiseFault f s)

theorem pow_doutBits_pos (i : Instr) : (0 : PortWord).toNat < 2 ^ doutBits i := by
  rw [BitVec.ofNat_eq_ofNat, BitVec.toNat_ofNat, Nat.zero_mod]
  exact Nat.two_pow_pos _

theorem romRead_cases : ∀ c : BitVec 3,
    (romRead c = none ∧ ¬ c.toNat ≤ 4) ∨ ∃ v, romRead c = some v ∧ c.toNat ≤ 4 ∧ val4 v < Config.q := by
  have h : ∀ c : BitVec 3, c = 0 ∨ c = 1 ∨ c = 2 ∨ c = 3 ∨ c = 4 ∨ c = 5 ∨ c = 6 ∨ c = 7 := by decide
  intro c
  rcases h c with rfl | rfl | rfl | rfl | rfl | rfl | rfl | rfl
  · exact Or.inr ⟨romZero, rfl, by decide, by decide⟩
  · exact Or.inr ⟨romOne, rfl, by decide, by decide⟩
  · exact Or.inr ⟨romR2, rfl, by decide, by decide⟩
  · exact Or.inr ⟨romR3, rfl, by decide, by decide⟩
  · exact Or.inr ⟨romTwoInv, rfl, by decide, by decide⟩
  all_goals exact Or.inl ⟨rfl, by decide⟩

theorem choiceOf_cases (s : State) (cm : BitVec 2) :
    (choiceOf s cm = none ∧ ¬ cm.toNat ≤ 2) ∨ ∃ b, choiceOf s cm = some b ∧ cm.toNat ≤ 2 := by
  have h : ∀ c : BitVec 2, c = 0 ∨ c = 1 ∨ c = 2 ∨ c = 3 := by decide
  rcases h cm with rfl | rfl | rfl | rfl
  · exact Or.inr ⟨_, rfl, by decide⟩
  · exact Or.inr ⟨_, rfl, by decide⟩
  · exact Or.inr ⟨_, rfl, by decide⟩
  · exact Or.inl ⟨rfl, by decide⟩

theorem sysRead_cases (s : State) (sr : BitVec 4) :
    (sysRead s sr = none ∧ sr.toNat ∉ [0, 1, 2, 3, 4, 8, 9, 10, 11]) ∨
      ∃ v, sysRead s sr = some v ∧ sr.toNat ∈ [0, 1, 2, 3, 4, 8, 9, 10, 11] := by
  have h : ∀ c : BitVec 4, c = 0 ∨ c = 1 ∨ c = 2 ∨ c = 3 ∨ c = 4 ∨ c = 5 ∨ c = 6 ∨ c = 7 ∨ c = 8 ∨ c = 9 ∨ c = 10 ∨
      c = 11 ∨ c = 12 ∨ c = 13 ∨ c = 14 ∨ c = 15 := by decide
  rcases h sr with rfl | rfl | rfl | rfl | rfl | rfl | rfl | rfl | rfl | rfl | rfl | rfl | rfl | rfl | rfl | rfl <;>
    first
      | exact Or.inr ⟨_, rfl, by decide⟩
      | exact Or.inl ⟨rfl, by decide⟩

/-- What `exec` does with any command in any state. -/
theorem exec_shape (i : Instr) (s : State) : ExecShape i s := by
  have hz := pow_doutBits_pos i
  cases i with
  | ldb rd =>
    refine .completes _ _ rfl (.maybe rd _ _ rfl rfl fun _ hok => ?_) hz
    rw [mmul_R2_val]
    exact st_lt _
  | stb ra =>
    refine .completes _ _ rfl .none ?_
    rw [driveElem_toNat]
    exact val4_lt _
  | ldi rd =>
    refine .completes _ _ rfl (.elem rd _ rfl fun _ => ?_) hz
    rw [fromSmall_val]
    exact st_lt _
  | ldraw rd =>
    refine .completes _ _ rfl (.maybe rd _ _ rfl rfl fun _ hok => ?_) hz
    rw [ltq_eq] at hok
    exact of_decide_eq_true hok
  | ldc rd c =>
    rcases romRead_cases c with ⟨hn, hc⟩ | ⟨v, hv, hc, hlt⟩
    · exact .raises .illegalCommand (.illegal _ (decide_eq_false hc))
        (by show execLdc rd c s = _; rw [execLdc, hn])
    · exact .completes _ _ (by show execLdc rd c s = _; rw [execLdc, hv]) (.elem rd v rfl fun _ => hlt) hz
  | ldw rd => exact .completes _ _ rfl (.wide rd _ rfl) hz
  | stw ra =>
    refine .completes _ _ rfl .none ?_
    rw [driveWide_toNat]
    exact val8_lt _
  | fwide rd ra =>
    refine .completes _ _ rfl (.elem rd _ rfl fun _ => ?_) hz
    rw [fromWide_val]
    exact st_lt _
  | fadd rd ra rb =>
    refine .completes _ _ rfl (.elem rd _ rfl fun h => ?_) hz
    rw [fadd_val _ _ (h ra) (h rb)]
    exact Nat.mod_lt _ q_pos
  | fsub rd ra rb =>
    refine .completes _ _ rfl (.elem rd _ rfl fun h => ?_) hz
    rw [fsub_val _ _ (h ra) (h rb)]
    exact Nat.mod_lt _ q_pos
  | fneg rd ra =>
    refine .completes _ _ rfl (.elem rd _ rfl fun h => ?_) hz
    rw [fneg_val _ (h ra)]
    exact Nat.mod_lt _ q_pos
  | fdbl rd ra =>
    refine .completes _ _ rfl (.elem rd _ rfl fun h => ?_) hz
    rw [fadd_val _ _ (h ra) (h ra)]
    exact Nat.mod_lt _ q_pos
  | fmul rd ra rb => exact .completes _ _ rfl (.elem rd _ rfl fun h => mmul_lt _ _ (Or.inl (h ra))) hz
  | fsqr rd ra =>
    refine .completes _ _ rfl (.elem rd _ rfl fun h => ?_) hz
    rw [msqr_eq_mmul]
    exact mmul_lt _ _ (Or.inl (h ra))
  | mulw rd ra rb => exact .completes _ _ rfl (.wide rd _ rfl) hz
  | sqrw rd ra => exact .completes _ _ rfl (.wide rd _ rfl) hz
  | mred rd ra =>
    refine .completes _ _ rfl (.maybe rd _ _ rfl rfl fun _ hok => ?_) hz
    rw [ltq_eq] at hok
    exact redc_lt _ (of_decide_eq_true hok)
  | fpow rd ra rb => exact .completes _ _ rfl (.elem rd _ rfl fun h => powv_lt _ (h ra) _) hz
  | finv rd ra => exact .completes _ _ rfl (.maybe rd _ _ rfl rfl fun h _ => powv_lt _ (h ra) _) hz
  | cteq ra rb => exact .completes _ _ rfl (.flagT _ rfl) hz
  | csel rd ra rb cm =>
    rcases choiceOf_cases s cm with ⟨hn, hc⟩ | ⟨b, hb, -⟩
    · exact .raises .illegalCommand (.illegal _ (decide_eq_false hc))
        (by show execCsel rd ra rb cm s = _; rw [execCsel, hn])
    · refine .completes _ _ (by show execCsel rd ra rb cm s = _; rw [execCsel, hb]) (.elem rd _ rfl fun h => ?_) hz
      rw [csel_eq]
      split
      · exact h rb
      · exact h ra
  | fcmp ra rb => exact .completes _ _ rfl (.flagOrd _ ⟨ra, rb, rfl⟩) hz
  | rdsr sr =>
    rcases sysRead_cases s sr with ⟨hn, hc⟩ | ⟨v, hv, hc⟩
    · exact .raises .illegalCommand (.illegal _ (decide_eq_false hc)) (by show execRdsr sr s = _; rw [execRdsr, hn])
    · exact .reads sr v rfl (decide_eq_true hc) hv (by show execRdsr sr s = _; rw [execRdsr, hv])
  | genr => exact .raises _ .genr rfl
  | rootu => exact .raises _ .rootu rfl

/-- Every command in every state is answered with a next state: one of four. -/
theorem exec_cases (i : Instr) (s : State) :
    (exec i s = .next (ignore s) ∧ faulted s = true) ∨
    (∃ s' d, exec i s = .next (respond s' d) ∧ faulted s = false ∧ Effect i s s' ∧ d.toNat < 2 ^ doutBits i) ∨
    (∃ sr v, i = .rdsr sr ∧ i.wellFormed = true ∧ sysRead s sr = some v ∧
      exec i s = .next (respond s (driveWord v))) ∨
    (∃ f, Raises i f ∧ faulted s = false ∧
      exec i s = .next (respond { s with status := setFault s.status f, fcmd := s.cmd } 0)) := by
  cases exec_shape i s with
  | completes s' d he hs hd =>
    cases hf : faulted s
    · exact Or.inr (Or.inl ⟨s', d, by rw [he, complete_of_not_faulted hf], rfl, hs, hd⟩)
    · exact Or.inl ⟨by rw [he, complete_of_faulted hf], rfl⟩
  | reads sr v hi hw hv he => exact Or.inr (Or.inr (Or.inl ⟨sr, v, hi, hw, hv, he⟩))
  | raises f hr he =>
    cases hf : faulted s
    · exact Or.inr (Or.inr (Or.inr ⟨f, hr, rfl, by rw [he, raiseFault_of_not_faulted hf]⟩))
    · exact Or.inl ⟨by rw [he, raiseFault_of_faulted hf], rfl⟩

/-- A property of the next state of a command, from the four ways a command is answered. -/
theorem exec_elim {i : Instr} {s t : State} {P : State → Prop} (h : exec i s = .next t)
    (ignored : faulted s = true → P (ignore s))
    (completed : ∀ s' d, faulted s = false → Effect i s s' → d.toNat < 2 ^ doutBits i → P (respond s' d))
    (read : ∀ sr v, i = .rdsr sr → i.wellFormed = true → sysRead s sr = some v → P (respond s (driveWord v)))
    (raised : ∀ f, Raises i f → faulted s = false →
      P (respond { s with status := setFault s.status f, fcmd := s.cmd } 0)) : P t := by
  rcases exec_cases i s with ⟨e, a⟩ | ⟨s', d, e, a, b, c⟩ | ⟨sr, v, a, b, c, e⟩ | ⟨f, a, b, e⟩ <;>
    rw [e, Host.Outcome.next.injEq] at h <;> subst h
  · exact ignored a
  · exact completed _ _ a b c
  · exact read _ _ a b c
  · exact raised _ a b

/-- A completed command leaves the port, the listing, FCMD and FAULT alone. -/
theorem Effect.frame {i : Instr} {s s' : State} (h : Effect i s s') :
    SamePort s s' ∧ s'.fcmd = s.fcmd ∧ statusFault s'.status = statusFault s.status := by
  cases h with
  | none => exact ⟨⟨rfl, rfl, rfl, rfl⟩, rfl, rfl⟩
  | elem => exact ⟨⟨rfl, rfl, rfl, rfl⟩, rfl, rfl⟩
  | wide => exact ⟨⟨rfl, rfl, rfl, rfl⟩, rfl, rfl⟩
  | maybe rd ok v =>
    exact ⟨⟨deliver_cmd _ _ _ _, deliver_din _ _ _ _, deliver_pending _ _ _ _, deliver_k _ _ _ _⟩,
      deliver_fcmd _ _ _ _, by rw [deliver_status, statusFault_setT]⟩
  | flagT => exact ⟨⟨rfl, rfl, rfl, rfl⟩, rfl, statusFault_setT _ _⟩
  | flagOrd => exact ⟨⟨rfl, rfl, rfl, rfl⟩, rfl, statusFault_setOrd _ _⟩

/-! ### The meanings that are not one completion as they are written -/

theorem exec_ldb (rd : ERegNum) (s : State) : exec (.ldb rd) s =
    complete s (deliver s rd (fromBytes (dec32 s.din)).1 (fromBytes (dec32 s.din)).2) 0 := rfl

theorem exec_finv (rd ra : ERegNum) (s : State) : exec (.finv rd ra) s =
    complete s (deliver s rd (finv (readE s ra)).1 (finv (readE s ra)).2) 0 := rfl

theorem exec_ldc {rd : ERegNum} {c : BitVec 3} {v : Limbs4} (s : State) (h : romRead c = some v) :
    exec (.ldc rd c) s = complete s (writeE s rd v) 0 := by
  show execLdc rd c s = _
  rw [execLdc, h]

theorem exec_csel {rd ra rb : ERegNum} {cm : BitVec 2} {b : Bool} {s : State} (h : choiceOf s cm = some b) :
    exec (.csel rd ra rb cm) s = complete s (writeE s rd (csel (readE s ra) (readE s rb) b)) 0 := by
  show execCsel rd ra rb cm s = _
  rw [execCsel, h]

theorem exec_rdsr {sr : BitVec 4} {v : Word} {s : State} (h : sysRead s sr = some v) :
    exec (.rdsr sr) s = .next (respond s (driveWord v)) := by
  show execRdsr sr s = _
  rw [execRdsr, h]

/-! ### The step -/

theorem step_idle {s : State} (h : s.pending = []) : step s = .next s := by
  rw [step, hostMove, h]

theorem step_reset {s : State} {f : Option Command} {rest : List HostMove} (h : s.pending = .reset f :: rest) :
    step s = .next (applyReset { s with pending := rest }) := by
  rw [step, hostMove, h]

theorem step_command {s : State} {c : Command} {rest : List HostMove} (h : s.pending = .command c :: rest) :
    step s = transact c { s with pending := rest } := by
  rw [step, hostMove, h]

theorem transact_decoded {c : Command} {i : Instr} (s : State) (h : decode c.cmd = .ok i) :
    transact c s = exec i (latch c s) := by
  rw [transact, h]

theorem transact_rejected {c : Command} {e : IllegalReason} (s : State) (h : decode c.cmd = .error e) :
    transact c s = raiseFault .illegalCommand (latch c s) := by
  rw [transact, h]

end Sys2Proof.Laws
end

