-- ==== Sys2Proof/Laws/PerInstr.lean ====
section
/-! SUPPORT. Statements made once per command. Family `OpcodeField`: the op field of a command's word is the opcode its
mnemonic has in the map of `30_encoding.md` R63. -/

namespace Sys2Proof.Laws

/-- A packed word as a number (R60). -/
theorem pack_toNat (op rd ra rb imm : Nat) : (pack op rd ra rb imm).toNat =
    (op * 0x1000000 + rd * 0x100000 + ra * 0x10000 + rb * 0x1000 + imm) % 0x100000000 := by
  rw [pack, BitVec.toNat_ofNat]

theorem fields_div_op (op rd ra rb imm : Nat) (hrd : rd < 16) (hra : ra < 16) (hrb : rb < 16) (himm : imm < 4096) :
    (op * 0x1000000 + rd * 0x100000 + ra * 0x10000 + rb * 0x1000 + imm) % 0x100000000 / 0x1000000 % 0x100 =
      op % 0x100 := by omega

/-- The op field of a packed word is its opcode, when every other field fits its bits (R60). -/
theorem pack_opField (op rd ra rb imm : Nat) (hrd : rd < 16) (hra : ra < 16) (hrb : rb < 16) (himm : imm < 4096) :
    (pack op rd ra rb imm).extractLsb' 24 8 = BitVec.ofNat 8 op := by
  apply BitVec.eq_of_toNat_eq
  rw [BitVec.extractLsb'_toNat, Nat.shiftRight_eq_div_pow, pack_toNat, BitVec.toNat_ofNat]
  exact fields_div_op op rd ra rb imm hrd hra hrb himm

namespace OpcodeField

/-- The column "op" of R63. -/
def opcode : Instr → Nat
  | .ldb _ => 0x10
  | .stb _ => 0x11
  | .ldi _ => 0x12
  | .ldraw _ => 0x13
  | .ldc _ _ => 0x14
  | .ldw _ => 0x15
  | .stw _ => 0x16
  | .fwide _ _ => 0x17
  | .fadd _ _ _ => 0x20
  | .fsub _ _ _ => 0x21
  | .fneg _ _ => 0x22
  | .fdbl _ _ => 0x23
  | .fmul _ _ _ => 0x24
  | .fsqr _ _ => 0x25
  | .mulw _ _ _ => 0x26
  | .sqrw _ _ => 0x27
  | .mred _ _ => 0x28
  | .fpow _ _ _ => 0x30
  | .finv _ _ => 0x31
  | .cteq _ _ => 0x40
  | .csel _ _ _ _ => 0x41
  | .fcmp _ _ => 0x42
  | .rdsr _ => 0x50
  | .genr => 0x58
  | .rootu => 0x59

/-- The op field of the command's word is its opcode. -/
def Statement (i : Instr) : Prop := (encode i).extractLsb' 24 8 = BitVec.ofNat 8 (opcode i)

theorem ldb (rd : ERegNum) : Statement (.ldb rd) :=
  pack_opField _ _ _ _ _ (by have := rd.isLt; omega) (by decide) (by decide) (by decide)
theorem stb (ra : ERegNum) : Statement (.stb ra) :=
  pack_opField _ _ _ _ _ (by decide) (by have := ra.isLt; omega) (by decide) (by decide)
theorem ldi (rd : ERegNum) : Statement (.ldi rd) :=
  pack_opField _ _ _ _ _ (by have := rd.isLt; omega) (by decide) (by decide) (by decide)
theorem ldraw (rd : ERegNum) : Statement (.ldraw rd) :=
  pack_opField _ _ _ _ _ (by have := rd.isLt; omega) (by decide) (by decide) (by decide)
theorem ldc (rd : ERegNum) (c : BitVec 3) : Statement (.ldc rd c) :=
  pack_opField _ _ _ _ _ (by have := rd.isLt; omega) (by decide) (by decide) (by have := c.isLt; omega)
theorem ldw (rd : WRegNum) : Statement (.ldw rd) :=
  pack_opField _ _ _ _ _ (by have := rd.isLt; omega) (by decide) (by decide) (by decide)
theorem stw (ra : WRegNum) : Statement (.stw ra) :=
  pack_opField _ _ _ _ _ (by decide) (by have := ra.isLt; omega) (by decide) (by decide)
theorem fwide (rd : ERegNum) (ra : WRegNum) : Statement (.fwide rd ra) :=
  pack_opField _ _ _ _ _ (by have := rd.isLt; omega) (by have := ra.isLt; omega) (by decide) (by decide)
theorem fadd (rd : ERegNum) (ra : ERegNum) (rb : ERegNum) : Statement (.fadd rd ra rb) :=
  pack_opField _ _ _ _ _ (by have := rd.isLt; omega) (by have := ra.isLt; omega) (by have := rb.isLt; omega) (by decide)
theorem fsub (rd : ERegNum) (ra : ERegNum) (rb : ERegNum) : Statement (.fsub rd ra rb) :=
  pack_opField _ _ _ _ _ (by have := rd.isLt; omega) (by have := ra.isLt; omega) (by have := rb.isLt; omega) (by decide)
theorem fneg (rd : ERegNum) (ra : ERegNum) : Statement (.fneg rd ra) :=
  pack_opField _ _ _ _ _ (by have := rd.isLt; omega) (by have := ra.isLt; omega) (by decide) (by decide)
theorem fdbl (rd : ERegNum) (ra : ERegNum) : Statement (.fdbl rd ra) :=
  pack_opField _ _ _ _ _ (by have := rd.isLt; omega) (by have := ra.isLt; omega) (by decide) (by decide)
theorem fmul (rd : ERegNum) (ra : ERegNum) (rb : ERegNum) : Statement (.fmul rd ra rb) :=
  pack_opField _ _ _ _ _ (by have := rd.isLt; omega) (by have := ra.isLt; omega) (by have := rb.isLt; omega) (by decide)
theorem fsqr (rd : ERegNum) (ra : ERegNum) : Statement (.fsqr rd ra) :=
  pack_opField _ _ _ _ _ (by have := rd.isLt; omega) (by have := ra.isLt; omega) (by decide) (by decide)
theorem mulw (rd : WRegNum) (ra : ERegNum) (rb : ERegNum) : Statement (.mulw rd ra rb) :=
  pack_opField _ _ _ _ _ (by have := rd.isLt; omega) (by have := ra.isLt; omega) (by have := rb.isLt; omega) (by decide)
theorem sqrw (rd : WRegNum) (ra : ERegNum) : Statement (.sqrw rd ra) :=
  pack_opField _ _ _ _ _ (by have := rd.isLt; omega) (by have := ra.isLt; omega) (by decide) (by decide)
theorem mred (rd : ERegNum) (ra : WRegNum) : Statement (.mred rd ra) :=
  pack_opField _ _ _ _ _ (by have := rd.isLt; omega) (by have := ra.isLt; omega) (by decide) (by decide)
theorem fpow (rd : ERegNum) (ra : ERegNum) (rb : WRegNum) : Statement (.fpow rd ra rb) :=
  pack_opField _ _ _ _ _ (by have := rd.isLt; omega) (by have := ra.isLt; omega) (by have := rb.isLt; omega) (by decide)
theorem finv (rd : ERegNum) (ra : ERegNum) : Statement (.finv rd ra) :=
  pack_opField _ _ _ _ _ (by have := rd.isLt; omega) (by have := ra.isLt; omega) (by decide) (by decide)
theorem cteq (ra : ERegNum) (rb : ERegNum) : Statement (.cteq ra rb) :=
  pack_opField _ _ _ _ _ (by decide) (by have := ra.isLt; omega) (by have := rb.isLt; omega) (by decide)
theorem csel (rd : ERegNum) (ra : ERegNum) (rb : ERegNum) (cm : BitVec 2) : Statement (.csel rd ra rb cm) :=
  pack_opField _ _ _ _ _ (by have := rd.isLt; omega) (by have := ra.isLt; omega) (by have := rb.isLt; omega) (by have := cm.isLt; omega)
theorem fcmp (ra : ERegNum) (rb : ERegNum) : Statement (.fcmp ra rb) :=
  pack_opField _ _ _ _ _ (by decide) (by have := ra.isLt; omega) (by have := rb.isLt; omega) (by decide)
theorem rdsr (sr : BitVec 4) : Statement (.rdsr sr) :=
  pack_opField _ _ _ _ _ (by decide) (by decide) (by decide) (by have := sr.isLt; omega)
theorem genr : Statement (.genr) :=
  pack_opField _ _ _ _ _ (by decide) (by decide) (by decide) (by decide)
theorem rootu : Statement (.rootu) :=
  pack_opField _ _ _ _ _ (by decide) (by decide) (by decide) (by decide)

end OpcodeField

end Sys2Proof.Laws
end

