-- ==== Sys2Proof/Tests/Slice0.lean ====
section
/-! SUPPORT. The model's own tests. Expected words and values are the spec's: the examples of the command rules, the tables
of `95_test_vectors.md` sections 2 and 3, and words written out from `30_encoding.md` R60, R61, R63. Then, for each
statement of `Obligations` that has hypotheses, a witness that they can be met, at the ends of each clause's range. -/

namespace Sys2Proof.Tests

-- One theorem at a time: evaluated side by side, the kernel tests below would hold more threads than the sandbox gives.
set_option Elab.async false

open Sys2Proof.Machine Sys2Proof.Safety

/-! ### Well-formedness: one ill-formed command for each check (R66) -/

theorem test_wellFormed_ldc : Instr.wellFormed (.ldc 3 4) = true ∧ Instr.wellFormed (.ldc 3 5) = false := by decide
theorem test_wellFormed_rdsr : Instr.wellFormed (.rdsr 11) = true ∧ Instr.wellFormed (.rdsr 12) = false ∧
    Instr.wellFormed (.rdsr 5) = false := by decide
theorem test_wellFormed_csel : Instr.wellFormed (.csel 1 2 3 2) = true ∧ Instr.wellFormed (.csel 1 2 3 3) = false := by
  decide

/-! ### Decoding: a word for each command, `OO D A B III` (R60) -/

theorem test_decode_ldb : decode 0x10700000#32 = .ok (.ldb 7) := by decide
theorem test_decode_stb : decode 0x11020000#32 = .ok (.stb 2) := by decide
theorem test_decode_ldi : decode 0x12500000#32 = .ok (.ldi 5) := by decide
theorem test_decode_ldraw : decode 0x13400000#32 = .ok (.ldraw 4) := by decide
theorem test_decode_ldc : decode 0x14300004#32 = .ok (.ldc 3 4) := by decide
theorem test_decode_ldw : decode 0x15300000#32 = .ok (.ldw 3) := by decide
theorem test_decode_stw : decode 0x16020000#32 = .ok (.stw 2) := by decide
theorem test_decode_fwide : decode 0x17630000#32 = .ok (.fwide 6 3) := by decide
theorem test_decode_fadd : decode 0x20201000#32 = .ok (.fadd 2 0 1) := by decide
theorem test_decode_fsub : decode 0x21345000#32 = .ok (.fsub 3 4 5) := by decide
theorem test_decode_fneg : decode 0x22210000#32 = .ok (.fneg 2 1) := by decide
theorem test_decode_fdbl : decode 0x23670000#32 = .ok (.fdbl 6 7) := by decide
theorem test_decode_fmul : decode 0x24567000#32 = .ok (.fmul 5 6 7) := by decide
theorem test_decode_fsqr : decode 0x25100000#32 = .ok (.fsqr 1 0) := by decide
theorem test_decode_mulw : decode 0x26367000#32 = .ok (.mulw 3 6 7) := by decide
theorem test_decode_sqrw : decode 0x27250000#32 = .ok (.sqrw 2 5) := by decide
theorem test_decode_mred : decode 0x28520000#32 = .ok (.mred 5 2) := by decide
theorem test_decode_fpow : decode 0x30463000#32 = .ok (.fpow 4 6 3) := by decide
theorem test_decode_finv : decode 0x31170000#32 = .ok (.finv 1 7) := by decide
theorem test_decode_cteq : decode 0x40023000#32 = .ok (.cteq 2 3) := by decide
theorem test_decode_csel : decode 0x41123002#32 = .ok (.csel 1 2 3 2) := by decide
theorem test_decode_fcmp : decode 0x42067000#32 = .ok (.fcmp 6 7) := by decide
theorem test_decode_rdsr : decode 0x50000009#32 = .ok (.rdsr 9) := by decide
theorem test_decode_genr : decode 0x58000000#32 = .ok .genr := by decide
theorem test_decode_rootu : decode 0x59000000#32 = .ok .rootu := by decide

/-- Unassigned opcodes, the all-zero and the all-ones word among them (R67). -/
theorem test_decode_unassigned : decode 0x00000000#32 = .error .noMatchingRow ∧
    decode 0xFFFFFFFF#32 = .error .noMatchingRow ∧ decode 0x29000000#32 = .error .noMatchingRow := by decide
/-- Register numbers out of range: E8 of FADD in each field, W4 of LDW and of FPOW (R65). -/
theorem test_decode_register : decode 0x20801000#32 = .error .noMatchingRow ∧
    decode 0x20081000#32 = .error .noMatchingRow ∧ decode 0x20018000#32 = .error .noMatchingRow ∧
    decode 0x15400000#32 = .error .noMatchingRow ∧ decode 0x30004000#32 = .error .noMatchingRow := by decide
/-- Nonzero unused fields (R64): FNEG with rb, GENR with imm, STB with rd, RDSR with imm[4]. -/
theorem test_decode_unused : decode 0x22211000#32 = .error .noMatchingRow ∧
    decode 0x58000001#32 = .error .noMatchingRow ∧ decode 0x11120000#32 = .error .noMatchingRow ∧
    decode 0x50000010#32 = .error .noMatchingRow := by decide
/-- Illegal immediates (R66). -/
theorem test_decode_immediate : decode 0x14000005#32 = .error .illegalImmediate ∧
    decode 0x50000005#32 = .error .illegalImmediate ∧ decode 0x5000000C#32 = .error .illegalImmediate ∧
    decode 0x41000003#32 = .error .illegalImmediate := by decide

/-- The host's reading of a table word. -/
theorem test_decodeTableWord : decodeTableWord 32 0x20201000 = some (.fadd 2 0 1) ∧
    decodeTableWord 32 0x00000000 = none := by decide
/-! ### Values of `95_test_vectors.md` section 2.1 -/

def st1 : Limbs4 := ⟨0x402DA1732FC9BEBF, 0x4551231950B75FC4, 1, 0⟩
def st2 : Limbs4 := ⟨0x805B42E65F937D7E, 0x8AA24632A16EBF88, 2, 0⟩
def st3 : Limbs4 := ⟨0xC088E4598F5D3C3D, 0xCFF3694BF2261F4C, 3, 0⟩
def st5 : Limbs4 := ⟨0x40E4273FEEF0B9BB, 0x5A95AF7E9394DED5, 6, 0⟩
def st6 : Limbs4 := ⟨0x8111C8B31EBA787A, 0x9FE6D297E44C3E99, 7, 0⟩
def st9 : Limbs4 := ⟨0x419AAD0CAE17B4B7, 0x6FDA3BE3D6725DE6, 0xB, 0⟩
def st243 : Limbs4 := ⟨0xEB5040565C800F4D, 0xCC0451079E0FE748, 0x134, 0⟩
def stMax64 : Limbs4 := ⟨0xBFD25E8CD0364141, 0xFADC7E59DF125EFA, 0x4551231950B75FC2, 1⟩
def stMinus1 : Limbs4 := ⟨0x7FA4BD19A06C8282, 0x755DB9CD5E914077, 0xFFFFFFFFFFFFFFFD, 0xFFFFFFFFFFFFFFFF⟩
def twoInv : Limbs4 := ⟨0, 0, 0, 0x8000000000000000⟩
def invThree : Limbs4 := ⟨0x15648B2665433F95, 0x6C706108703D1FEC, 0, 0⟩
/-- The greatest stored value, q − 1, and the least limbs that are none, q. -/
def storedMax : Limbs4 := ⟨0xBFD25E8CD0364140, 0xBAAEDCE6AF48A03B, 0xFFFFFFFFFFFFFFFE, 0xFFFFFFFFFFFFFFFF⟩
def limbsQ : Limbs4 := ⟨0xBFD25E8CD0364141, 0xBAAEDCE6AF48A03B, 0xFFFFFFFFFFFFFFFE, 0xFFFFFFFFFFFFFFFF⟩
def qBytes : PortWord := 0xFFFFFFFFFFFFFFFFFFFFFFFFFFFFFFFEBAAEDCE6AF48A03BBFD25E8CD0364141
def qMinus1Bytes : PortWord := 0xFFFFFFFFFFFFFFFFFFFFFFFFFFFFFFFEBAAEDCE6AF48A03BBFD25E8CD0364140
def ones : Word := 0xFFFFFFFFFFFFFFFF
def allOnes8 : Limbs8 := ⟨ones, ones, ones, ones, ones, ones, ones, ones⟩

/-! ### Limb primitives (`95_test_vectors.md` section 2.2), and the ends of the range test -/

theorem test_mac : mac ones ones ones ones = (ones, ones) ∧ mac 1 ones 2 0 = (ones, 1) := by decide
theorem test_adc : adc ones ones ones = (0xFFFFFFFFFFFFFFFD, 2) ∧ adc ones 0 1 = (0, 1) := by decide
theorem test_sbb : sbb 5 3 0 = (2, 0) ∧ sbb 0 ones ones = (0, ones) ∧ sbb 1 0 ones = (0, 0) := by decide
theorem test_ltq : ltq storedMax = true ∧ ltq limbsQ = false := by decide

/-! ### States and runs -/

/-- From reset, E0 and E1 set. -/
def pair (a b : Limbs4) : State := writeE (writeE State.reset 0 a) 1 b
/-- From reset, E0 and W0 set. -/
def withWide (a : Limbs4) (t : Limbs8) : State := writeW (writeE State.reset 0 a) 0 t
/-- From reset, T set. -/
def withT (s : State) : State := writeT s true
/-- A block that GENR has faulted. -/
def faultedState : State := { State.reset with status := 0x00000020, fcmd := 0x58000000 }
/-- A command as the host's next move. -/
def present (w : CmdWord) (d : PortWord) (s : State) : State := presentNext ⟨w, d⟩ s
/-- One command, from issue to response. -/
def run (w : CmdWord) (d : PortWord) (s : State) : Outcome := step (present w d s)

/-- What a test reads of an outcome; none when the step stopped. -/
def after {α : Type} (o : Outcome) (f : State → α) : Option α :=
  match o with
  | .next t => some (f t)
  | _ => none

def rstatOf (t : State) : Option CmdWord := t.resp.map (·.rstat)
def doutOf (t : State) : Option PortWord := t.resp.map (·.dout)

/-- The first instruction after reset, through the step (log 1): LDC E3, #TWO_INV, and the listing is used up. -/
theorem test_withFetchWord : after (step (State.reset.withFetchWord 32 0x14300004))
    (fun t => (readE t 3, t.cmd, t.k, t.pending)) = some (twoInv, 0x14300004, 1, []) := by decide +kernel

/-! ### Commands: codec and data movement -/

theorem test_ldb : after (run 0x10000000 5 (pair st3 st3)) (fun t => (readE t 0, rstatOf t, doutOf t)) =
    some (st5, some 1, some 0) := by decide +kernel
/-- The encoding of q is refused: T is 0 and the register is kept (program 4). -/
theorem test_ldb_rejects : after (run 0x10000000 qBytes (withT (pair st3 st3))) (fun t => (readE t 0, rstatOf t)) =
    some (st3, some 0) := by decide +kernel
theorem test_stb : after (run 0x11000000 0 (pair stMinus1 st1)) doutOf = some (some qMinus1Bytes) := by decide +kernel
theorem test_stb_one : after (run 0x11010000 0 (pair stMinus1 st1)) doutOf = some (some 1) := by decide +kernel
theorem test_ldi : after (run 0x12000000 2 State.reset) (fun t => readE t 0) = some st2 := by decide +kernel
/-- The greatest 64-bit integer; DIN above bit 63 is ignored. -/
theorem test_ldi_max : after (run 0x12700000 0x7FFFFFFFFFFFFFFFF State.reset) (fun t => readE t 7) =
    some stMax64 := by decide +kernel
theorem test_ldraw : after (run 0x13400000 0x8000000000000000000000000000000000000000000000000000000000000000 State.reset)
    (fun t => (readE t 4, rstatOf t)) = some (twoInv, some 1) := by decide +kernel
theorem test_ldraw_rejects : after (run 0x13000000 qBytes (pair st2 st3)) (fun t => (readE t 0, rstatOf t)) =
    some (st2, some 0) := by decide +kernel
theorem test_ldc : after (run 0x14300004 0 State.reset) (fun t => readE t 3) = some twoInv := by decide +kernel
theorem test_ldc_one : after (run 0x14600001 0 State.reset) (fun t => readE t 6) = some st1 := by decide +kernel
theorem test_ldw : after (run 0x15000000
      0x3F3E3D3C3B3A393837363534333231302F2E2D2C2B2A292827262524232221201F1E1D1C1B1A191817161514131211100F0E0D0C0B0A09080706050403020100
      State.reset) (fun t => readW t 0) =
    some ⟨0x0706050403020100, 0x0F0E0D0C0B0A0908, 0x1716151413121110, 0x1F1E1D1C1B1A1918, 0x2726252423222120,
      0x2F2E2D2C2B2A2928, 0x3736353433323130, 0x3F3E3D3C3B3A3938⟩ := by decide +kernel
theorem test_stw : after (run 0x16000000 0 (withWide st1 ⟨0x0706050403020100, 0, 0, 0, 0, 0, 0, 0x3F3E3D3C3B3A3938⟩))
    (fun t => (doutOf t).map fun d => (byteLane d 0, byteLane d 7, byteLane d 56, byteLane d 63)) =
    some (some (0x00, 0x07, 0x38, 0x3F)) := by decide +kernel
theorem test_fwide : after (run 0x17100000 0 (withWide st1 ⟨0x0706050403020100, 0x0F0E0D0C0B0A0908, 0x1716151413121110,
      0x1F1E1D1C1B1A1918, 0x2726252423222120, 0x2F2E2D2C2B2A2928, 0x3736353433323130, 0x3F3E3D3C3B3A3938⟩))
      (fun t => readE t 1) =
    some ⟨0xD9F489B69EAD2658, 0xAACE874067C5C666, 0x1A899DAB9C1270A4, 0xF8749BE627857CFA⟩ := by decide +kernel
theorem test_fwide_ones : after (run 0x17100000 0 (withWide st1 allOnes8)) (fun t => readE t 1) =
    some ⟨0x3B932E6DBA35832E, 0xBAC6416AF41CD268, 0xB1B31347F1D0B2D8, 0x555D800C18EF116D⟩ := by decide +kernel

/-! ### Commands: field core -/

theorem test_fadd : after (run 0x20201000 0 (pair st2 st3)) (fun t => readE t 2) = some st5 := by decide +kernel
/-- The sum of 1 and −1 is 0, with the destination also a source. -/
theorem test_fadd_wraps : after (run 0x20001000 0 (pair st1 stMinus1)) (fun t => readE t 0) = some zero4 := by
  decide +kernel
theorem test_fsub : after (run 0x21201000 0 (pair zero4 st1)) (fun t => readE t 2) = some stMinus1 := by decide +kernel
theorem test_fsub_order : after (run 0x21201000 0 (pair st5 st3)) (fun t => readE t 2) = some st2 := by decide +kernel
theorem test_fneg : after (run 0x22210000 0 (pair st2 st1)) (fun t => readE t 2) = some stMinus1 := by decide +kernel
theorem test_fneg_zero : after (run 0x22200000 0 (pair zero4 st1)) (fun t => readE t 2) = some zero4 := by decide +kernel
theorem test_fdbl : after (run 0x23100000 0 (pair st3 st1)) (fun t => readE t 1) = some st6 := by decide +kernel
theorem test_fdbl_carry : after (run 0x23100000 0 (pair twoInv zero4)) (fun t => readE t 1) = some st1 := by
  decide +kernel
theorem test_fmul : after (run 0x24201000 0 (pair st2 st3)) (fun t => readE t 2) = some st6 := by decide +kernel
theorem test_fmul_one : after (run 0x24201000 0 (pair stMinus1 st1)) (fun t => readE t 2) = some stMinus1 := by
  decide +kernel
theorem test_fsqr : after (run 0x25100000 0 (pair st3 st1)) (fun t => readE t 1) = some st9 := by decide +kernel
theorem test_fsqr_minus_one : after (run 0x25100000 0 (pair stMinus1 st2)) (fun t => readE t 1) = some st1 := by
  decide +kernel
theorem test_mulw : after (run 0x26001000 0 (pair st2 st3)) (fun t => readW t 0) =
    some ⟨0xB77BE3C750546F06, 0x1894B5F472A19439, 0x678FC35A26CE2E9F, 0xB06AAD010AA7A6A3, 9, 0, 0, 0⟩ := by decide +kernel
theorem test_sqrw : after (run 0x27100000 0 (pair st3 st1)) (fun t => val8 (readW t 1)) =
    some 0xE88A003818FFB79F51B57A5073A3545EEA4DF10EEABF25E569339D5AAF87EA689 := by decide +kernel
theorem test_mred : after (run 0x28200000 0 (withWide st1
      ⟨0xB77BE3C750546F06, 0x1894B5F472A19439, 0x678FC35A26CE2E9F, 0xB06AAD010AA7A6A3, 9, 0, 0, 0⟩))
      (fun t => (readE t 2, rstatOf t)) = some (st6, some 1) := by decide +kernel
/-- Out of range: T is 0 and the register is kept. -/
theorem test_mred_absent : after (run 0x28000000 0 (withT (withWide st3 allOnes8))) (fun t => (readE t 0, rstatOf t)) =
    some (st3, some 0) := by decide +kernel

/-! ### Commands: exponentiation -/

/-- 3 to the power 5 (R162). The 512 iterations are not run: the value law of `powv` gives the represented power. -/
theorem test_fpow : ∃ t, exec (.fpow 1 0 0) (withWide st3 ⟨5, 0, 0, 0, 0, 0, 0, 0⟩) = .next t ∧ readE t 1 = st243 := by
  have hf : faulted (withWide st3 ⟨5, 0, 0, 0, 0, 0, 0, 0⟩) = false := by decide
  refine ⟨_, Laws.complete_of_not_faulted hf _ _, ?_⟩
  rw [Laws.readE_respond, Laws.readE_writeE_same]
  apply Laws.val4_injective
  rw [Laws.powv_val _ 3 (by decide +kernel), Laws.listVal_exponentLimbs]
  decide +kernel
/-- The same loop run on one exponent limb. -/
theorem test_powv : powv st3 [5] = st243 := by decide +kernel
theorem test_finv : after (run 0x31100000 0 (pair st3 st1)) (fun t => (readE t 1, rstatOf t)) =
    some (invThree, some 1) := by decide +kernel
/-- The inverse of 0 is absent (R163): T is 0 and the register is kept. -/
theorem test_finv_zero : after (run 0x31100000 0 (withT (pair zero4 st3))) (fun t => (readE t 1, rstatOf t)) =
    some (st3, some 0) := by decide +kernel

/-! ### Commands: comparison and selection -/

theorem test_cteq : after (run 0x40001000 0 (pair st5 st5)) rstatOf = some (some 1) := by decide +kernel
theorem test_cteq_differs : after (run 0x40001000 0 (withT (pair st5 twoInv))) rstatOf = some (some 0) := by
  decide +kernel
/-- Mode #T picks the second source when T is 1, mode #0 the first. -/
theorem test_csel : after (run 0x41201002 0 (withT (pair st5 st6))) (fun t => readE t 2) = some st6 ∧
    after (run 0x41201002 0 (pair st5 st6)) (fun t => readE t 2) = some st5 := by decide +kernel
theorem test_csel_literal : after (run 0x41201000 0 (withT (pair st5 st6))) (fun t => readE t 2) = some st5 ∧
    after (run 0x41201001 0 (pair st5 st6)) (fun t => readE t 2) = some st6 := by decide +kernel
theorem test_fcmp : after (run 0x42001000 0 (pair st2 st3)) rstatOf = some (some 2) ∧
    after (run 0x42010000 0 (pair st2 st3)) rstatOf = some (some 4) := by decide +kernel
/-- The order is that of the represented values: stored 1 is less than stored st(2), but R⁻¹ mod q is greater than 2. -/
theorem test_fcmp_represented : after (run 0x42001000 0 (pair ⟨1, 0, 0, 0⟩ st2)) rstatOf = some (some 4) ∧
    val4 ⟨1, 0, 0, 0⟩ < val4 st2 := by decide +kernel

/-! ### Commands: system, faults, reset -/

theorem test_rdsr : after (run 0x50000008 0 State.reset) doutOf = some (some 0xBFD25E8CD0364141) := by decide +kernel
/-- In the faulted state RDSR #FCMD returns the word that faulted (R201). -/
theorem test_rdsr_faulted : after (run 0x50000001 0 faultedState) (fun t => (doutOf t, rstatOf t)) =
    some (some 0x58000000, some 0x20) := by decide +kernel
theorem test_genr : after (run 0x58000000 0 State.reset) (fun t => (rstatOf t, doutOf t, t.fcmd)) =
    some (some 0x20, some 0, 0x58000000) := by decide +kernel
theorem test_rootu : after (run 0x59000000 0 State.reset) (fun t => (rstatOf t, t.fcmd)) =
    some (some 0x20, 0x59000000) := by decide +kernel
/-- The all-zero word is an illegal command. -/
theorem test_illegal : after (run 0x00000000 7 (withT State.reset)) (fun t => (rstatOf t, doutOf t, t.fcmd)) =
    some (some 0x11, some 0, 0) := by decide +kernel
/-- GENR with a nonzero unused field is IllegalCommand (`60_exceptions.md` R223). -/
theorem test_illegal_genr : after (run 0x58000001 0 State.reset) (fun t => (rstatOf t, t.fcmd)) =
    some (some 0x10, 0x58000001) := by decide +kernel
/-- In the faulted state a command is ignored. -/
theorem test_faulted : after (run 0x12000000 2 faultedState) (fun t => (readE t 0, rstatOf t, doutOf t, t.fcmd)) =
    some (zero4, some 0x20, some 0, 0x58000000) := by decide +kernel
/-- Reset is the way out of the faulted state. -/
theorem test_reset : after (step { faultedState with pending := [.reset none] })
    (fun t => (t.status, t.fcmd, t.resp)) = some (0, 0, none) := by decide +kernel

/-! ### Witnesses -/

/-- The pending lists of the statements on the step, in an unfaulted and in the faulted block. -/
theorem witness_ResetMoveResets :
    { faultedState with pending := [.reset none, .command ⟨0, 0⟩] }.pending = .reset none :: [.command ⟨0, 0⟩] ∧
    { State.reset with pending := [.reset (some ⟨0x20201000#32, 0⟩)] }.pending =
      .reset (some ⟨0x20201000#32, 0⟩) :: [] := ⟨rfl, rfl⟩
theorem witness_IdleBlockKeepsState : State.reset.pending = [] := by decide
theorem witness_StepRunsDecodedCommand : (present 0x20201000 0 State.reset).pending = .command ⟨0x20201000, 0⟩ :: [] ∧
    decode 0x20201000 = .ok (.fadd 2 0 1) := ⟨rfl, by decide⟩
theorem witness_RejectedWordFaults : (present 0x20801000 0 State.reset).pending = .command ⟨0x20801000, 0⟩ :: [] ∧
    Rejected 0x20801000 ∧ Rejected 0x14000005 ∧ faulted (present 0x20801000 0 State.reset) = false :=
  ⟨rfl, ⟨.noMatchingRow, by decide⟩, ⟨.illegalImmediate, by decide⟩, by decide⟩
theorem witness_FaultEntryWritesOnlyFault : faulted State.reset = false := by decide
theorem witness_FaultedBlockServesOnlyRdsr :
    (present 0x5000000B 0 faultedState).pending = .command ⟨0x5000000B, 0⟩ :: [] ∧
    faulted (present 0x5000000B 0 faultedState) = true ∧ decode 0x5000000B = .ok (.rdsr 11) ∧
    (∀ sr, decode 0x5000000C ≠ .ok (.rdsr sr)) ∧ ∀ sr, decode 0x20201000 ≠ .ok (.rdsr sr) :=
  ⟨rfl, by decide, by decide, by decide, by decide⟩
theorem witness_EveryCommandIsAnswered : (present 0x16000000 0 faultedState).pending = .command ⟨0x16000000, 0⟩ :: [] ∧
    decode 0x16000000 = .ok (.stw 0) ∧ Rejected 0 := ⟨rfl, by decide, ⟨.noMatchingRow, by decide⟩⟩
theorem witness_ElementsStayReduced : ElementsReduced (pair storedMax zero4) ∧
    ∃ t, step (pair storedMax zero4) = .next t := ⟨by decide +kernel, ⟨_, rfl⟩⟩
theorem witness_ControlStateStaysLegal : ControlLegal State.reset ∧ ControlLegal faultedState ∧
    ∃ t, step faultedState = .next t :=
  ⟨⟨⟨rfl, by decide, by decide, by decide⟩, by decide, fun r h => nomatch h⟩,
    ⟨⟨rfl, by decide, by decide, by decide⟩, by decide, fun r h => nomatch h⟩, ⟨_, rfl⟩⟩
/-- The same invariant with a response on the port, before an idle step, a command, a reset and an ignored command. -/
theorem witness_ControlStateStaysLegal_response :
    (respond faultedState 7).resp = some ⟨0x20, 7⟩ ∧ ControlLegal (respond faultedState 7) ∧
    ControlLegal (respond (withT State.reset) 7) ∧
    (∃ t, step (respond faultedState 7) = .next t) ∧
    (∃ t, step (present 0x00000000 0 (respond (withT State.reset) 7)) = .next t) ∧
    (∃ t, step { respond faultedState 7 with pending := [.reset none] } = .next t) ∧
    ∃ t, step (present 0x00000000 0 (respond faultedState 7)) = .next t :=
  ⟨rfl, ⟨⟨rfl, by decide, by decide, by decide⟩, by decide, fun r h => by cases h; rfl⟩,
    ⟨⟨rfl, by decide, by decide, by decide⟩, by decide, fun r h => by cases h; rfl⟩,
    ⟨_, rfl⟩, ⟨_, rfl⟩, ⟨_, rfl⟩, ⟨_, rfl⟩⟩
/-- For the three frames: a command with an element, one with a wide and one with no destination. -/
theorem witness_Frames : (∃ t, exec (.fadd 2 0 1) State.reset = .next t) ∧ destE (.fadd 2 0 1) ≠ some 3 ∧
    (∃ t, exec (.mulw 2 0 1) State.reset = .next t) ∧ destW (.mulw 2 0 1) ≠ some 3 ∧
    (∃ t, exec .genr State.reset = .next t) ∧ destE .genr ≠ some 0 ∧ writesT (.fadd 2 0 1) = false ∧
    (∀ ra rb, Instr.fadd 2 0 1 ≠ .fcmp ra rb) ∧ Instr.fadd 2 0 1 ≠ .genr ∧ Instr.fadd 2 0 1 ≠ .rootu ∧
    Instr.wellFormed (.fadd 2 0 1) = true :=
  ⟨⟨_, rfl⟩, by decide, ⟨_, rfl⟩, by decide, ⟨_, rfl⟩, by decide, by decide, by decide, by decide, by decide, by decide⟩
theorem witness_FirstFaultIsKept :
    (∃ t, step (present 0 0 faultedState) = .next t) ∧ (∀ f rest, (present 0 0 faultedState).pending ≠ .reset f :: rest) ∧
    faulted (present 0 0 faultedState) = true ∧ faulted (present 0 0 State.reset) = false ∧
    after (run 0 0 State.reset) faulted = some true ∧ after (run 0x58000000 0 State.reset) faulted = some true ∧
    after (run 0x40000000 0 State.reset) faulted = some false :=
  ⟨⟨_, rfl⟩, (fun _ _ h => nomatch h), by decide, by decide, by decide, by decide, by decide +kernel⟩
theorem witness_DecodeEncodeRoundTrip : Instr.wellFormed (.csel 7 0 7 2) = true ∧ Instr.wellFormed (.rdsr 8) = true := by
  decide
theorem witness_DecodedWordIsEncoding : decode 0x30777000 = .error .noMatchingRow ∧
    decode 0x30773000 = .ok (.fpow 7 7 3) := by decide
theorem witness_IllegalImmediatesRejected : Instr.wellFormed (.ldc 0 5) = false ∧ Instr.wellFormed (.ldc 0 7) = false ∧
    Instr.wellFormed (.rdsr 5) = false ∧ Instr.wellFormed (.rdsr 15) = false ∧
    Instr.wellFormed (.csel 0 0 0 3) = false := by decide
theorem witness_UnassignedOpcodesRejected : ((0x0F000000 : CmdWord).extractLsb' 24 8).toNat ∉
    [0x10, 0x11, 0x12, 0x13, 0x14, 0x15, 0x16, 0x17, 0x20, 0x21, 0x22, 0x23, 0x24, 0x25, 0x26, 0x27, 0x28,
      0x30, 0x31, 0x40, 0x41, 0x42, 0x50, 0x58, 0x59] := by decide
/-- For every statement on one or two elements (FADD, FSUB, FNEG, FDBL, FMUL, FSQR, MULW, SQRW, STB, CTEQ, FCMP, and the two
that compare commands, MulwThenMredIsFmul and FcmpAgreesWithCteq): an unfaulted block with the least and the greatest stored
value in E0 and E1. -/
theorem witness_TwoElements : faulted (pair zero4 storedMax) = false ∧ val4 (readE (pair zero4 storedMax) 0) = 0 ∧
    val4 (readE (pair zero4 storedMax) 1) = Config.q - 1 ∧ val4 (readE (pair zero4 storedMax) 0) < Config.q ∧
    val4 (readE (pair zero4 storedMax) 1) < Config.q := by decide +kernel
/-- MRED on both sides of its range: the high half q − 1 with every low bit set, and the high half q. -/
theorem witness_MredReducesInRange :
    faulted (withWide st1 ⟨ones, ones, ones, ones, storedMax.l0, storedMax.l1, storedMax.l2, storedMax.l3⟩) = false ∧
    val8 (readW (withWide st1 ⟨ones, ones, ones, ones, storedMax.l0, storedMax.l1, storedMax.l2, storedMax.l3⟩) 0) =
      Config.q * 0x10000000000000000000000000000000000000000000000000000000000000000 - 1 ∧
    val8 (readW (withWide st1 ⟨0, 0, 0, 0, limbsQ.l0, limbsQ.l1, limbsQ.l2, limbsQ.l3⟩) 0) =
      Config.q * 0x10000000000000000000000000000000000000000000000000000000000000000 := by decide +kernel
/-- The constant −q⁻¹ mod 2^256 of the reducer statement; its low word is INV. -/
theorem witness_ReducerIsExact :
    0xD9E8890D6494EF93897F30C127CFAB5E50A51AC834B9EC244B0DFF665588B13F < 2 ^ 256 ∧
    (0xD9E8890D6494EF93897F30C127CFAB5E50A51AC834B9EC244B0DFF665588B13F * Config.q + 1) % 2 ^ 256 = 0 ∧
    0xD9E8890D6494EF93897F30C127CFAB5E50A51AC834B9EC244B0DFF665588B13F % 2 ^ 64 = inv64.toNat := by decide
/-- LDB and LDRAW on both sides of their range. -/
theorem witness_LdbLdraw : faulted { State.reset with din := qMinus1Bytes } = false ∧ qMinus1Bytes.toNat % 2 ^ 256 < Config.q ∧
    ¬ qBytes.toNat % 2 ^ 256 < Config.q ∧ (0 : PortWord).toNat % 2 ^ 256 < Config.q := by decide +kernel
theorem witness_LdcLoadsConstant : faulted State.reset = false ∧ (0 : BitVec 3).toNat ≤ 4 ∧ (4 : BitVec 3).toNat ≤ 4 ∧
    ¬(5 : BitVec 3).toNat ≤ 4 := by decide
theorem witness_DataMovesAreIdempotent : (∃ t, exec (.stw 3) State.reset = .next t) ∧
    (∃ t u, exec (.ldw 3) State.reset = .next t ∧ exec (.ldw 3) t = .next u) ∧
    (∃ t u, exec (.ldc 3 4) State.reset = .next t ∧ exec (.ldc 3 4) t = .next u) :=
  ⟨⟨_, rfl⟩, ⟨_, _, rfl, rfl⟩, ⟨_, _, rfl, rfl⟩⟩
/-- Two data values that agree on the bits LDI uses and differ above them. -/
theorem witness_UnusedDinBitsIgnored : (0x10000000000000002 : PortWord).toNat % 2 ^ dinBits (.ldi 0) =
    ({ State.reset with din := 2 }).din.toNat % 2 ^ dinBits (.ldi 0) := by decide +kernel
/-- FPOW and FINV: a nonzero element with the exponents q − 1 and q − 2, and the zero element. -/
theorem witness_Exponents :
    faulted (withWide storedMax ⟨storedMax.l0, storedMax.l1, storedMax.l2, storedMax.l3, 0, 0, 0, 0⟩) = false ∧
    val4 (readE (withWide storedMax ⟨storedMax.l0, storedMax.l1, storedMax.l2, storedMax.l3, 0, 0, 0, 0⟩) 0) < Config.q ∧
    val4 (readE (withWide storedMax ⟨storedMax.l0, storedMax.l1, storedMax.l2, storedMax.l3, 0, 0, 0, 0⟩) 0) ≠ 0 ∧
    val8 (readW (withWide storedMax ⟨storedMax.l0, storedMax.l1, storedMax.l2, storedMax.l3, 0, 0, 0, 0⟩) 0) =
      Config.q - 1 ∧
    val8 (readW (withWide storedMax ⟨0xBFD25E8CD036413F, storedMax.l1, storedMax.l2, storedMax.l3, 0, 0, 0, 0⟩) 0) =
      Config.q - 2 ∧ val4 (readE State.reset 0) = 0 ∧ (1 : ERegNum) ≠ 0 := by decide +kernel
theorem witness_CselSelects : faulted (pair st5 st6) = false ∧ (0 : BitVec 2) ≠ 3 ∧ (1 : BitVec 2) ≠ 3 ∧ (2 : BitVec 2) ≠ 3 ∧
    statusT (pair st5 st6).status = false ∧ statusT (withT (pair st5 st6)).status = true := by decide
theorem witness_RdsrReadsSystemRegister : (4 : BitVec 4).toNat ∈ [0, 1, 2, 3, 4, 8, 9, 10, 11] ∧
    (5 : BitVec 4).toNat ∉ [0, 1, 2, 3, 4, 8, 9, 10, 11] ∧ (7 : BitVec 4).toNat ∉ [0, 1, 2, 3, 4, 8, 9, 10, 11] ∧
    (8 : BitVec 4).toNat ∈ [0, 1, 2, 3, 4, 8, 9, 10, 11] ∧ (11 : BitVec 4).toNat ∈ [0, 1, 2, 3, 4, 8, 9, 10, 11] ∧
    (12 : BitVec 4).toNat ∉ [0, 1, 2, 3, 4, 8, 9, 10, 11] := by decide
theorem witness_UnsupportedCommandsFault : faulted State.reset = false ∧ faulted faultedState = true ∧
    (0x58000001 : CmdWord).extractLsb' 24 8 = 0x58#8 ∧ (0x59FFFFFF : CmdWord).extractLsb' 24 8 = 0x59#8 := by decide
theorem witness_FaultedCommandsIgnored : faulted faultedState = true ∧
    (∀ sr, Instr.genr = .rdsr sr → Instr.wellFormed .genr = false) ∧
    ∀ sr, Instr.rdsr 5 = .rdsr sr → Instr.wellFormed (.rdsr 5) = false := by decide
theorem witness_IllegalImmediatesFault : faulted State.reset = false ∧ Instr.wellFormed (.ldc 0 5) = false ∧
    Instr.wellFormed (.rdsr 12) = false ∧ Instr.wellFormed (.csel 0 0 0 3) = false := by decide
theorem witness_FaultingWordReadsBack :
    ({ State.reset with pending := [.command ⟨0xFFFFFFFF, 0⟩, .command ⟨0x50000001, 1⟩] }).pending =
      .command ⟨0xFFFFFFFF, 0⟩ :: .command ⟨0x50000001, 1⟩ :: [] ∧
    faulted ({ State.reset with pending := [.command ⟨0xFFFFFFFF, 0⟩, .command ⟨0x50000001, 1⟩] }) = false ∧
    Rejected 0xFFFFFFFF := ⟨rfl, by decide, ⟨.noMatchingRow, by decide⟩⟩
/-- Two states that agree on the block's registers and differ in the response and the listing. -/
theorem witness_ResultIsFunctionOfState :
    (present 0x20201000 0 State.reset).pending = .command ⟨0x20201000, 0⟩ :: [] ∧
    (present 0x20201000 0 { State.reset with pending := [.reset none], resp := some ⟨0, 1⟩, k := 5 }).pending =
      .command ⟨0x20201000, 0⟩ :: [.reset none] := ⟨rfl, rfl⟩

end Sys2Proof.Tests
end

/-! PROOFS. The family `10_state.md`: what a step and a command can do to each part of the block's state, then the
statements of the family. -/

namespace Sys2Proof.Proofs

open Sys2Proof.Machine Sys2Proof.Safety Sys2Proof.Laws

/-! ### The step and the decoder -/

/-- The decoder accepts no command whose immediate `30_encoding.md` R66 forbids. -/
theorem wellFormed_of_decode {w : CmdWord} {i : Instr} (h : decode w = .ok i) : i.wellFormed = true := by
  unfold decode at h
  split at h
  · cases h
  · dsimp only at h
    split at h
    · cases h
      assumption
    · cases h

/-- A property of the next state of a step, from the four things a step can do: nothing, a reset, a decoded command or
the fault entry of a rejected word. -/
theorem step_elim {s t : State} {P : State → Prop} (h : step s = .next t)
    (idle : s.pending = [] → P s)
    (reset : ∀ f rest, s.pending = .reset f :: rest → P (applyReset { s with pending := rest }))
    (decoded : ∀ c rest i u, s.pending = .command c :: rest → decode c.cmd = .ok i →
      exec i (latch c { s with pending := rest }) = .next u → P u)
    (rejected : ∀ c rest e u, s.pending = .command c :: rest → decode c.cmd = .error e →
      raiseFault .illegalCommand (latch c { s with pending := rest }) = .next u → P u) : P t := by
  match hp : s.pending with
  | [] =>
    rw [step_idle hp, Host.Outcome.next.injEq] at h
    exact h ▸ idle hp
  | .reset f :: rest =>
    rw [step_reset hp, Host.Outcome.next.injEq] at h
    exact h ▸ reset f rest hp
  | .command c :: rest =>
    rw [step_command hp] at h
    match hd : decode c.cmd with
    | .ok i => exact decoded c rest i t hp hd (transact_decoded _ hd ▸ h)
    | .error e => exact rejected c rest e t hp hd (transact_rejected _ hd ▸ h)

/-! ### The element and the wide file (`10_state.md` R20 to R23) -/

theorem elementsReduced_congr {s t : State} (h : t.e = s.e) (hs : ElementsReduced s) : ElementsReduced t :=
  fun j => readE_congr h j ▸ hs j

theorem elementsReduced_writeE {s : State} {rd : ERegNum} {v : Limbs4} (hs : ElementsReduced s)
    (hv : val4 v < Config.q) : ElementsReduced (writeE s rd v) := by
  intro j
  by_cases hj : j = rd
  · rw [hj, readE_writeE_same]
    exact hv
  · rw [readE_writeE_ne _ _ _ _ hj]
    exact hs j

theorem elementsReduced_deliver {s : State} {rd : ERegNum} {ok : Bool} {v : Limbs4} (hs : ElementsReduced s)
    (hv : ok = true → val4 v < Config.q) : ElementsReduced (deliver s rd ok v) := by
  cases ok with
  | false => exact hs
  | true => exact elementsReduced_writeE (s := writeT s true) hs (hv rfl)

/-- The writes of a completed command keep every element below q. -/
theorem elementsReduced_of_effect {i : Instr} {s s' : State} (h : Effect i s s') (hs : ElementsReduced s) :
    ElementsReduced s' := by
  cases h with
  | elem rd v _ hv => exact elementsReduced_writeE hs (hv hs)
  | maybe rd ok v _ _ hv => exact elementsReduced_deliver hs (hv hs)
  | none | wide | flagT | flagOrd => exact hs

theorem elementsReduced_exec {i : Instr} {s t : State} (hs : ElementsReduced s) (h : exec i s = .next t) :
    ElementsReduced t :=
  exec_elim h (fun _ => hs)
    (fun s' d _ he _ => elementsReduced_congr (respond_e s' d) (elementsReduced_of_effect he hs))
    (fun _ _ _ _ _ => hs) (fun _ _ _ => hs)

theorem raiseFault_e {f : FaultCode} {s t : State} (h : raiseFault f s = .next t) : t.e = s.e := by
  obtain ⟨-, rfl⟩ | ⟨-, rfl⟩ := raiseFault_cases h <;> rfl

theorem elementsReduced_reset : ElementsReduced State.reset := by
  intro i
  rw [readE_reset]
  decide

/-- The writes of a completed command leave every element register but the destination. -/
theorem readE_effect {i : Instr} {s s' : State} {j : ERegNum} (h : Effect i s s') (hj : destE i ≠ some j) :
    readE s' j = readE s j := by
  cases h with
  | elem rd v hd => exact readE_writeE_ne _ _ _ _ fun e => hj (e ▸ hd)
  | maybe rd ok v hd => exact readE_deliver_ne _ _ _ _ _ fun e => hj (e ▸ hd)
  | none | wide | flagT | flagOrd => rfl

/-- The writes of a completed command leave every wide register but the destination. -/
theorem readW_effect {i : Instr} {s s' : State} {j : WRegNum} (h : Effect i s s') (hj : destW i ≠ some j) :
    readW s' j = readW s j := by
  cases h with
  | wide rd v hd => exact readW_writeW_ne _ _ _ _ fun e => hj (e ▸ hd)
  | maybe rd ok v => exact readW_congr (deliver_w _ _ _ _) j
  | none | elem | flagT | flagOrd => rfl

/-! ### The reserved bits of STATUS (`10_state.md` R24) -/

/-- A write of a field that is neither bit 3 nor above bit 7 keeps the reserved bits. -/
theorem reserved_putField (lo n : Nat) (st : CmdWord) (v : BitVec n) (h3 : ¬(lo ≤ 3 ∧ 3 < lo + n))
    (h8 : lo + n ≤ 8) : (putField lo n st v).getLsbD 3 = st.getLsbD 3 ∧
      getField 8 24 (putField lo n st v) = getField 8 24 st :=
  ⟨putField_getLsbD_outside _ _ _ _ _ (by decide) h3,
    getField_putField_disjoint _ _ _ _ _ _ (by decide) (.inr h8)⟩

theorem faultNumber_le_two (f : FaultCode) : (faultNumber f).toNat ≤ 2 := by cases f <;> decide

/-! ### STATUS and FCMD (`10_state.md` R24 to R28) -/

/-- What can happen to STATUS and FCMD: nothing, a write of T, a write of ORD, or the fault entry of an unfaulted block.
`wt` and `wo` say when T and ORD may be written and `raises` which faults may be entered. -/
inductive ControlChange (wt wo : Prop) (raises : FaultCode → Prop) (s t : State) : Prop
  | kept (hs : t.status = s.status) (hf : t.fcmd = s.fcmd)
  | flagT (hw : wt) (b : Bool) (hs : t.status = setT s.status b) (hf : t.fcmd = s.fcmd)
  | flagOrd (hw : wo) (o : OrderResult) (hs : t.status = setOrd s.status o) (hf : t.fcmd = s.fcmd)
  | entry (f : FaultCode) (hr : raises f) (hn : faulted s = false) (hs : t.status = setFault s.status f)
      (hf : t.fcmd = s.cmd)

/-- What the writes of a completed command, once answered, do to STATUS and FCMD. -/
theorem controlChange_of_effect {i : Instr} {s s' : State} (h : Effect i s s') (d : PortWord) :
    ControlChange (writesT i = true) (∃ ra rb, i = .fcmp ra rb) (Raises i) s (respond s' d) := by
  cases h with
  | maybe rd ok v _ ht => exact .flagT ht ok (deliver_status _ _ _ _) (deliver_fcmd _ _ _ _)
  | flagT b ht => exact .flagT ht b rfl rfl
  | flagOrd o ho => exact .flagOrd ho o rfl rfl
  | none | elem | wide => exact .kept rfl rfl

/-- What any command does to STATUS and FCMD. -/
theorem controlChange_exec {i : Instr} {s t : State} (h : exec i s = .next t) :
    ControlChange (writesT i = true) (∃ ra rb, i = .fcmp ra rb) (Raises i) s t :=
  exec_elim h (fun _ => .kept rfl rfl) (fun _ d _ he _ => controlChange_of_effect he d)
    (fun _ _ _ _ _ => .kept rfl rfl) (fun f hr hn => .entry f hr hn rfl rfl)

/-- What fault entry does to STATUS and FCMD. -/
theorem controlChange_raiseFault {f : FaultCode} {s t : State} (h : raiseFault f s = .next t) :
    ControlChange False False (· = f) s t := by
  obtain ⟨-, rfl⟩ | ⟨hn, rfl⟩ := raiseFault_cases h
  · exact .kept rfl rfl
  · exact .entry f rfl hn rfl rfl

section
variable {wt wo : Prop} {raises : FaultCode → Prop} {s t : State}

/-- No change writes a reserved bit. -/
theorem ControlChange.reserved (h : ControlChange wt wo raises s t) :
    t.status.getLsbD 3 = s.status.getLsbD 3 ∧ getField 8 24 t.status = getField 8 24 s.status := by
  cases h with
  | kept hs => rw [hs]; exact ⟨rfl, rfl⟩
  | flagT _ _ hs | flagOrd _ _ hs | entry _ _ _ hs =>
    rw [hs]
    exact reserved_putField _ _ _ _ (by decide) (by decide)

theorem ControlChange.statusT_eq (h : ControlChange wt wo raises s t) (hw : ¬ wt) :
    statusT t.status = statusT s.status := by
  cases h with
  | flagT h => exact absurd h hw
  | kept hs | flagOrd _ _ hs | entry _ _ _ hs => simp [hs]

theorem ControlChange.statusOrd_eq (h : ControlChange wt wo raises s t) (hw : ¬ wo) :
    statusOrd t.status = statusOrd s.status := by
  cases h with
  | flagOrd h => exact absurd h hw
  | kept hs | flagT _ _ hs | entry _ _ _ hs => simp [hs]

/-- ORD is never written to 3 (R26). -/
theorem ControlChange.statusOrd_ne_three (h : ControlChange wt wo raises s t) (hs3 : statusOrd s.status ≠ 3) :
    statusOrd t.status ≠ 3 := by
  cases h with
  | flagOrd _ o hs =>
    rw [hs, statusOrd_setOrd]
    exact orderNumber_ne_three o
  | kept hs | flagT _ _ hs | entry _ _ _ hs => simpa [hs] using hs3

/-- FAULT and FCMD are kept, or an unfaulted block takes one of the faults and records its word (R27, R28). -/
theorem ControlChange.fault_cases (h : ControlChange wt wo raises s t) :
    (statusFault t.status = statusFault s.status ∧ t.fcmd = s.fcmd) ∨
      (faulted s = false ∧ ∃ f, raises f ∧ statusFault t.status = faultNumber f ∧ t.fcmd = s.cmd) := by
  cases h with
  | entry f hr hn hs hf => exact .inr ⟨hn, f, hr, by rw [hs, statusFault_setFault], hf⟩
  | kept hs hf | flagT _ _ hs hf | flagOrd _ _ hs hf => exact .inl ⟨by simp [hs], hf⟩

theorem ControlChange.statusLegal (h : ControlChange wt wo raises s t) (hs : StatusLegal s) : StatusLegal t := by
  obtain ⟨hbit, hhigh, hord, hfault⟩ := hs
  obtain ⟨hbit', hhigh'⟩ := h.reserved
  refine ⟨hbit'.trans hbit, hhigh'.trans hhigh, h.statusOrd_ne_three hord, ?_⟩
  obtain ⟨hk, -⟩ | ⟨-, f, -, hk, -⟩ := h.fault_cases <;> rw [hk]
  · exact hfault
  · exact faultNumber_le_two f

theorem ControlChange.fcmdClear (h : ControlChange wt wo raises s t) (hs : FcmdClear s) : FcmdClear t := by
  intro h0
  obtain ⟨hk, hf⟩ | ⟨-, f, -, hk, -⟩ := h.fault_cases
  · exact hf.trans (hs (hk ▸ h0))
  · exact absurd (hk ▸ h0) (faultNumber_ne_zero f)

end

/-- A well-formed command raises UnsupportedOperation only, and is GENR or ROOTU (`45_system.md` R203, R204). -/
theorem raises_of_wellFormed {i : Instr} {f : FaultCode} (h : Raises i f) (hw : i.wellFormed = true) :
    f = .unsupportedOperation ∧ (i = .genr ∨ i = .rootu) := by
  cases h with
  | illegal _ hn => exact absurd hw (Bool.eq_false_iff.mp hn)
  | genr => exact ⟨rfl, .inl rfl⟩
  | rootu => exact ⟨rfl, .inr rfl⟩

/-! ### The response (`20_memory.md` R42) -/

theorem responseCurrent_respond (s : State) (d : PortWord) : ResponseCurrent (respond s d) := by
  intro r hr
  cases hr
  rfl

theorem responseCurrent_exec {i : Instr} {s t : State} (h : exec i s = .next t) : ResponseCurrent t :=
  exec_elim h (fun _ => responseCurrent_respond _ _) (fun _ _ _ _ _ => responseCurrent_respond _ _)
    (fun _ _ _ _ _ => responseCurrent_respond _ _) (fun _ _ _ => responseCurrent_respond _ _)

theorem responseCurrent_raiseFault {f : FaultCode} {s t : State} (h : raiseFault f s = .next t) :
    ResponseCurrent t := by
  obtain ⟨-, rfl⟩ | ⟨-, rfl⟩ := raiseFault_cases h <;> exact responseCurrent_respond _ _

theorem controlLegal_reset : ControlLegal State.reset := by
  refine ⟨by decide, fun _ => rfl, fun r hr => ?_⟩
  cases hr

/-! ### The fault state across a step (`60_exceptions.md` R224, R225, R227) -/

/-- FAULT and FCMD are kept, or an unfaulted block has taken a command, entered its fault and recorded its word. -/
def FaultKeptOrEntered (s t : State) : Prop :=
  (statusFault t.status = statusFault s.status ∧ t.fcmd = s.fcmd) ∨
      (faulted s = false ∧ ∃ c rest, s.pending = .command c :: rest ∧ t.fcmd = c.cmd ∧
        ((statusFault t.status = 1 ∧ Rejected c.cmd) ∨
          (statusFault t.status = 2 ∧ (decode c.cmd = .ok .genr ∨ decode c.cmd = .ok .rootu))))

/-- Only a reset does anything else to FAULT and FCMD. -/
theorem faultKeptOrEntered_step {s t : State} (h : step s = .next t)
    (hr : ∀ f rest, s.pending ≠ .reset f :: rest) : FaultKeptOrEntered s t := by
  refine step_elim (P := fun t => FaultKeptOrEntered s t) h (fun _ => .inl ⟨rfl, rfl⟩)
    (fun f rest hp => absurd hp (hr f rest)) ?_ ?_
  · intro c rest i u hp hd he
    obtain hk | ⟨hn, f, hraise, hf, hc⟩ := (controlChange_exec he).fault_cases
    · exact .inl hk
    · obtain ⟨rfl, hi⟩ := raises_of_wellFormed hraise (wellFormed_of_decode hd)
      refine .inr ⟨hn, c, rest, hp, hc, .inr ⟨hf, ?_⟩⟩
      obtain rfl | rfl := hi
      · exact .inl hd
      · exact .inr hd
  · intro c rest e u hp hd he
    obtain hk | ⟨hn, f, rfl, hf, hc⟩ := (controlChange_raiseFault he).fault_cases
    · exact .inl hk
    · exact .inr ⟨hn, c, rest, hp, hc, .inl ⟨hf, e, hd⟩⟩

/-! ### Nothing but the block's state and the port's inputs is read (`10_state.md` R36)

`blind` takes away the last response and the host's listing. A command does the same on the blind state and on the whole
one, so two states that are equal once blind are answered alike. -/

/-- The state without the last response, the host's listing and the listing index. -/
def blind (s : State) : State := { s with resp := none, pending := [], k := 0 }

/-- The state without the host's listing and the listing index, the response kept. -/
def unlisted (s : State) : State := { s with pending := [], k := 0 }

/-- The first outcome is a next state, and the second is this state with the listing taken away. -/
def SameButListing (o o' : Outcome) : Prop := ∃ t, o = .next t ∧ o' = .next (unlisted t)

theorem complete_blind (s s' : State) (d : PortWord) :
    SameButListing (complete s s' d) (complete (blind s) (blind s') d) := by
  have hb : faulted (blind s) = faulted s := rfl
  cases hf : faulted s
  · exact ⟨_, complete_of_not_faulted hf _ _, complete_of_not_faulted (hb.trans hf) _ _⟩
  · exact ⟨_, complete_of_faulted hf _ _, complete_of_faulted (hb.trans hf) _ _⟩

theorem raiseFault_blind (f : FaultCode) (s : State) :
    SameButListing (raiseFault f s) (raiseFault f (blind s)) := by
  have hb : faulted (blind s) = faulted s := rfl
  cases hf : faulted s
  · exact ⟨_, raiseFault_of_not_faulted hf _, raiseFault_of_not_faulted (hb.trans hf) _⟩
  · exact ⟨_, raiseFault_of_faulted hf _, raiseFault_of_faulted (hb.trans hf) _⟩

theorem deliver_blind (s : State) (rd : ERegNum) (ok : Bool) (v : Limbs4) :
    deliver (blind s) rd ok v = blind (deliver s rd ok v) := by cases ok <;> rfl

theorem complete_deliver_blind (s : State) (rd : ERegNum) (ok : Bool) (v : Limbs4) (d : PortWord) :
    SameButListing (complete s (deliver s rd ok v) d) (complete (blind s) (deliver (blind s) rd ok v) d) :=
  deliver_blind s rd ok v ▸ complete_blind s (deliver s rd ok v) d

/-- A command does not read the last response, the listing or the index. -/
theorem exec_blind (i : Instr) (s : State) : SameButListing (exec i s) (exec i (blind s)) := by
  cases i with
  | ldb rd | ldraw rd | mred rd ra | finv rd ra => exact complete_deliver_blind s rd _ _ _
  | stb ra | stw ra => exact complete_blind s s _
  | ldi rd => exact complete_blind s (writeE s rd _) _
  | ldw rd => exact complete_blind s (writeW s rd _) _
  | fwide rd ra | fneg rd ra | fdbl rd ra | fsqr rd ra | fadd rd ra rb | fsub rd ra rb | fmul rd ra rb | fpow rd ra rb =>
    exact complete_blind s (writeE s rd _) _
  | mulw rd ra rb | sqrw rd ra => exact complete_blind s (writeW s rd _) _
  | cteq ra rb => exact complete_blind s (writeT s _) _
  | fcmp ra rb => exact complete_blind s (writeOrd s _) _
  | ldc rd c =>
    obtain ⟨hn, -⟩ | ⟨v, hv, -⟩ := romRead_cases c
    · simp only [exec, execLdc, hn]
      exact raiseFault_blind _ s
    · rw [exec_ldc _ hv, exec_ldc _ hv]
      exact complete_blind s (writeE s rd v) _
  | csel rd ra rb cm =>
    have hb : choiceOf (blind s) cm = choiceOf s cm := rfl
    obtain ⟨hn, -⟩ | ⟨b, hc, -⟩ := choiceOf_cases s cm
    · simp only [exec, execCsel, hb, hn]
      exact raiseFault_blind _ s
    · rw [exec_csel hc, exec_csel (hb.trans hc)]
      exact complete_blind s (writeE s rd _) _
  | rdsr sr =>
    have hb : sysRead (blind s) sr = sysRead s sr := rfl
    obtain ⟨hn, -⟩ | ⟨v, hv, -⟩ := sysRead_cases s sr
    · simp only [exec, execRdsr, hb, hn]
      exact raiseFault_blind _ s
    · exact ⟨_, exec_rdsr hv, exec_rdsr (hb.trans hv)⟩
  | genr | rootu => exact raiseFault_blind _ s

/-- The outcome of a transaction, but for the listing, is determined by the blind state in which the command is issued. -/
theorem transact_blind (c : Command) (x : State) :
    ∃ o, ∀ s, blind (latch c s) = x → SameButListing (transact c s) o := by
  match hd : decode c.cmd with
  | .ok i =>
    refine ⟨exec i x, fun s hs => ?_⟩
    rw [transact_decoded _ hd, ← hs]
    exact exec_blind i _
  | .error e =>
    refine ⟨raiseFault .illegalCommand x, fun s hs => ?_⟩
    rw [transact_rejected _ hd, ← hs]
    exact raiseFault_blind _ _

/-- Two outcomes that are one outcome but for the listing agree in the block's registers and the response. -/
theorem SameButListing.agree {o o' b : Outcome} (h : SameButListing o b) (h' : SameButListing o' b) :
    ∃ t t', o = .next t ∧ o' = .next t' ∧ t.e = t'.e ∧ t.w = t'.w ∧ t.status = t'.status ∧ t.fcmd = t'.fcmd ∧
      t.resp = t'.resp := by
  obtain ⟨t, ht, hb⟩ := h
  obtain ⟨t', ht', hb'⟩ := h'
  have heq : unlisted t = unlisted t' := Host.Outcome.next.inj (hb.symm.trans hb')
  simp only [unlisted, State.mk.injEq] at heq
  obtain ⟨he, hw, hstatus, hfcmd, -, -, hresp, -⟩ := heq
  exact ⟨t, t', ht, ht', he, hw, hstatus, hfcmd, hresp⟩

/-! ### The statements of the family -/

/-- Settles O11: each effect of a command writes only elements below q, and a reset writes zeros. -/
theorem elementsStayReduced : Obligations.ElementsStayReduced := by
  refine ⟨elementsReduced_reset, fun s t hs h => ?_⟩
  refine step_elim (P := ElementsReduced) h (fun _ => hs) (fun _ _ _ => elementsReduced_reset) ?_ ?_
  · exact fun c rest i u _ _ he => elementsReduced_exec (s := latch c { s with pending := rest }) hs he
  · exact fun c rest e u _ _ he => elementsReduced_congr (raiseFault_e he) hs

/-- Settles O12: a command makes one of the four control changes, each of which keeps the control state legal, and is
answered with STATUS as it then stands. -/
theorem controlStateStaysLegal : Obligations.ControlStateStaysLegal := by
  intro s t hs h
  have ⟨hst, hfc, _⟩ := hs
  refine step_elim (P := ControlLegal) h (fun _ => hs) (fun _ _ _ => controlLegal_reset) ?_ ?_
  · intro c rest i u _ _ he
    have hc := controlChange_exec he
    exact ⟨hc.statusLegal hst, hc.fcmdClear hfc, responseCurrent_exec he⟩
  · intro c rest e u _ _ he
    have hc := controlChange_raiseFault he
    exact ⟨hc.statusLegal hst, hc.fcmdClear hfc, responseCurrent_raiseFault he⟩

/-- Settles O13, from the destination of each effect. -/
theorem elementFileFrame : Obligations.ElementFileFrame := by
  intro i s t j h hj
  exact exec_elim (P := fun t => readE t j = readE s j) h (fun _ => rfl)
    (fun s' d _ he _ => (readE_respond s' d j).trans (readE_effect he hj)) (fun _ _ _ _ _ => rfl) (fun _ _ _ => rfl)

/-- Settles O14, from the destination of each effect. -/
theorem wideFileFrame : Obligations.WideFileFrame := by
  intro i s t j h hj
  exact exec_elim (P := fun t => readW t j = readW s j) h (fun _ => rfl)
    (fun s' d _ he _ => (readW_respond s' d j).trans (readW_effect he hj)) (fun _ _ _ _ _ => rfl) (fun _ _ _ => rfl)

/-- Settles O15, from the control change the command makes. -/
theorem statusFrame : Obligations.StatusFrame := by
  intro i s t h
  have hc := controlChange_exec h
  refine ⟨fun hT => hc.statusT_eq (by simp [hT]), fun hO => hc.statusOrd_eq (by simpa using hO), ?_, hc.reserved⟩
  intro hg hr hw
  obtain hk | ⟨-, f, hf, -⟩ := hc.fault_cases
  · exact hk
  · obtain ⟨-, hi⟩ := raises_of_wellFormed hf hw
    exact absurd hi (not_or.mpr ⟨hg, hr⟩)

/-- Settles O17: a step that is not a reset keeps FAULT and FCMD or enters a fault from an unfaulted block. -/
theorem firstFaultIsKept : Obligations.FirstFaultIsKept := by
  intro s t h hr
  obtain ⟨hf, hc⟩ | ⟨hn, c, rest, hp, hc, hcause⟩ := faultKeptOrEntered_step h hr
  · have hsame : faulted t = faulted s := by rw [faulted, faulted, hf]
    exact ⟨fun _ => ⟨hf, hc⟩, fun _ _ => ⟨hf, hc⟩, fun hs ht => by simp [hsame, hs] at ht⟩
  · have ht : faulted t = true := by
      rw [faulted_iff]
      obtain ⟨h1, -⟩ | ⟨h2, -⟩ := hcause
      · simp [h1]
      · simp [h2]
    exact ⟨fun hs => by simp [hn] at hs, fun _ hs => by simp [ht] at hs, fun _ _ => ⟨c, rest, hp, hc, hcause⟩⟩

/-- Settles O60: the two states are equal once blind, and a command does the same on a state and on the blind one. -/
theorem resultIsFunctionOfState : Obligations.ResultIsFunctionOfState := by
  intro s s' c rest rest' hp hp' he hw hst hf
  rw [step_command hp, step_command hp']
  obtain ⟨o, ho⟩ := transact_blind c (blind (latch c { s with pending := rest }))
  exact (ho _ rfl).agree (ho _ (by simp [blind, latch, he, hw, hst, hf]))

/-- Settles O1: every register of the reset state reads 0. -/
theorem resetStateIsZero : Obligations.ResetStateIsZero :=
  ⟨readE_reset, readW_reset, rfl, by decide, by decide, by decide, rfl⟩

/-- Settles O10: the base case of the two invariants O11 and O12. -/
theorem invariantsHoldAtReset : Obligations.InvariantsHoldAtReset :=
  ⟨elementsReduced_reset, controlLegal_reset⟩

/-- Settles O36, each constant by computation. -/
theorem constantsMatchDefinitions : Obligations.ConstantsMatchDefinitions := by
  refine ⟨by decide, by decide, ?_, ?_, by decide, by decide, val4_qLimbs, by decide, radix_mul_inv⟩
  · rw [val4_romR2, pow_two]
  · rw [val4_romR3, pow_three']

end Sys2Proof.Proofs

/-! PROOFS. The family `20_memory.md`: every command is answered, what stands on the port, repeated loads and the bits of
DIN a command uses, then the statements of the family. -/

namespace Sys2Proof.Proofs

open Sys2Proof.Machine Sys2Proof.Safety Sys2Proof.Laws

/-! ### Every command is answered (`20_memory.md` R42) -/

theorem exec_answers (i : Instr) (s : State) : ∃ t, exec i s = .next t := by
  obtain ⟨h, -⟩ | ⟨_, _, h, -⟩ | ⟨_, _, -, -, -, h⟩ | ⟨_, -, -, h⟩ := exec_cases i s <;> exact ⟨_, h⟩

theorem raiseFault_answers (f : FaultCode) (s : State) : ∃ t, raiseFault f s = .next t := by
  cases hf : faulted s
  · exact ⟨_, raiseFault_of_not_faulted hf f⟩
  · exact ⟨_, raiseFault_of_faulted hf f⟩

theorem transact_answers (c : Command) (s : State) : ∃ t, transact c s = .next t := by
  match hd : decode c.cmd with
  | .ok i =>
    rw [transact_decoded s hd]
    exact exec_answers i _
  | .error e =>
    rw [transact_rejected s hd]
    exact raiseFault_answers _ _

/-- The response shows STATUS after the command and drives only the DOUT bits of the command (R42, R45). -/
theorem exec_response {i : Instr} {s t : State} (h : exec i s = .next t) :
    ∃ d, t.resp = some ⟨t.status, d⟩ ∧ d.toNat < 2 ^ doutBits i := by
  refine exec_elim (P := fun t => ∃ d, t.resp = some ⟨t.status, d⟩ ∧ d.toNat < 2 ^ doutBits i) h
    (fun _ => ⟨0, rfl, pow_doutBits_pos i⟩) (fun _ d _ _ hd => ⟨d, rfl, hd⟩) ?_
    (fun _ _ _ => ⟨0, rfl, pow_doutBits_pos i⟩)
  rintro sr v rfl - -
  refine ⟨driveWord v, rfl, ?_⟩
  rw [driveWord_toNat]
  exact v.isLt

/-- Fault entry drives nothing on DOUT and leaves the host's listing alone (R42). -/
theorem raiseFault_response {f : FaultCode} {s t : State} (h : raiseFault f s = .next t) :
    t.pending = s.pending ∧ AnsweredNothing t := by
  obtain ⟨-, rfl⟩ | ⟨-, rfl⟩ := raiseFault_cases h <;> exact ⟨rfl, rfl⟩

/-! ### The port and the listing (`20_memory.md` R41) -/

/-- A command writes neither the word and data on the port nor the host's listing. -/
theorem samePort_exec {i : Instr} {s t : State} (h : exec i s = .next t) : SamePort s t :=
  exec_elim (P := SamePort s) h (fun _ => ⟨rfl, rfl, rfl, rfl⟩) (fun _ _ _ he _ => he.frame.1)
    (fun _ _ _ _ _ => ⟨rfl, rfl, rfl, rfl⟩) (fun _ _ _ => ⟨rfl, rfl, rfl, rfl⟩)

/-! ### Stores and repeated loads (`20_memory.md` R49) -/

/-- A command that completes with no write changes no register. -/
theorem sameRegisters_complete {s t : State} {d : PortWord} (h : complete s s d = .next t) : SameRegisters s t := by
  obtain ⟨-, rfl⟩ | ⟨-, rfl⟩ := complete_cases h <;> exact sameRegisters_respond s _

/-- Completing with the writes `f` a second time changes nothing at all, when `f` does not read the response and doing it
twice is doing it once. -/
theorem complete_twice {f : State → State} {s t u : State}
    (hresp : ∀ s d, respond (f (respond s d)) d = respond (f s) d) (hidem : ∀ s, f (f s) = f s)
    (ht : complete s (f s) 0 = .next t) (hu : complete t (f t) 0 = .next u) : u = t := by
  obtain ⟨hs, rfl⟩ | ⟨-, rfl⟩ := complete_cases ht
  · have hs' : faulted (ignore s) = true := hs
    rw [complete_of_faulted hs', Host.Outcome.next.injEq] at hu
    exact hu.symm
  · obtain ⟨-, rfl⟩ | ⟨-, rfl⟩ := complete_cases hu
    · rfl
    · rw [hresp, hidem]

/-- Writing the same value to a field again changes nothing. -/
theorem putField_putField (lo n : Nat) (st : CmdWord) (v : BitVec n) :
    putField lo n (putField lo n st v) v = putField lo n st v := by
  apply BitVec.eq_of_getLsbD_eq
  intro j hj
  rw [putField_getLsbD _ _ _ _ _ hj, putField_getLsbD _ _ _ _ _ hj]
  split <;> rfl

theorem writeE_writeE (s : State) (rd : ERegNum) (v : Limbs4) : writeE (writeE s rd v) rd v = writeE s rd v := by
  simp [writeE]

theorem writeW_writeW (s : State) (rd : WRegNum) (v : Limbs8) : writeW (writeW s rd v) rd v = writeW s rd v := by
  simp [writeW]

theorem writeT_writeT (s : State) (b : Bool) : writeT (writeT s b) b = writeT s b := by
  simp only [writeT, setT, putField_putField]

theorem deliver_deliver (s : State) (rd : ERegNum) (ok : Bool) (v : Limbs4) :
    deliver (deliver s rd ok v) rd ok v = deliver s rd ok v := by
  cases ok
  · exact writeT_writeT s false
  · calc writeE (writeT (writeE (writeT s true) rd v) true) rd v
      _ = writeE (writeE (writeT (writeT s true) true) rd v) rd v := rfl
      _ = writeE (writeT s true) rd v := by rw [writeT_writeT, writeE_writeE]

theorem respond_deliver_respond (s : State) (rd : ERegNum) (ok : Bool) (v : Limbs4) (d : PortWord) :
    respond (deliver (respond s d) rd ok v) d = respond (deliver s rd ok v) d := by cases ok <;> rfl

/-- A load whose result may be absent, done twice with the same DIN. -/
theorem exec_deliver_twice {i : Instr} {rd : ERegNum} {ok : PortWord → Bool} {v : PortWord → Limbs4} {s t u : State}
    (hx : ∀ s, exec i s = complete s (deliver s rd (ok s.din) (v s.din)) 0)
    (ht : exec i s = .next t) (hu : exec i t = .next u) : u = t :=
  complete_twice (f := fun s => deliver s rd (ok s.din) (v s.din)) (fun s d => respond_deliver_respond s rd _ _ d)
    (fun s => by rw [deliver_din, deliver_deliver]) (hx s ▸ ht) (hx t ▸ hu)

/-- A load of an element register, done twice with the same DIN. -/
theorem exec_writeE_twice {i : Instr} {rd : ERegNum} {v : PortWord → Limbs4} {s t u : State}
    (hx : ∀ s, exec i s = complete s (writeE s rd (v s.din)) 0)
    (ht : exec i s = .next t) (hu : exec i t = .next u) : u = t :=
  complete_twice (f := fun s => writeE s rd (v s.din)) (fun _ _ => rfl)
    (fun s => by rw [writeE_din, writeE_writeE]) (hx s ▸ ht) (hx t ▸ hu)

/-- A load of a wide register, done twice with the same DIN. -/
theorem exec_writeW_twice {i : Instr} {rd : WRegNum} {v : PortWord → Limbs8} {s t u : State}
    (hx : ∀ s, exec i s = complete s (writeW s rd (v s.din)) 0)
    (ht : exec i s = .next t) (hu : exec i t = .next u) : u = t :=
  complete_twice (f := fun s => writeW s rd (v s.din)) (fun _ _ => rfl)
    (fun s => by rw [writeW_din, writeW_writeW]) (hx s ▸ ht) (hx t ▸ hu)

/-! ### The bits of DIN a command uses (`20_memory.md` R45) -/

theorem limbLane_zero_congr {p p' : PortWord} (h : p.toNat % 2 ^ 64 = p'.toNat % 2 ^ 64) :
    limbLane p 0 = limbLane p' 0 := by
  apply BitVec.eq_of_toNat_eq
  rw [limbLane_toNat, limbLane_toNat, Nat.mul_zero, Nat.pow_zero, Nat.div_one, Nat.div_one, h]

theorem dec32_congr {p p' : PortWord} (h : p.toNat % 2 ^ 256 = p'.toNat % 2 ^ 256) : dec32 p = dec32 p' :=
  val4_injective (by rw [dec32_val, dec32_val, h])

/-- The state with another data value on the port. -/
def withDin (d : PortWord) (s : State) : State := { s with din := d }

/-- The first outcome is a next state, and the second is this state with `d` on the port. -/
def SameButDin (d : PortWord) (o o' : Outcome) : Prop := ∃ t, o = .next t ∧ o' = .next (withDin d t)

theorem complete_withDin (d : PortWord) (s s' : State) (dout : PortWord) :
    SameButDin d (complete s s' dout) (complete (withDin d s) (withDin d s') dout) := by
  have hb : faulted (withDin d s) = faulted s := rfl
  cases hf : faulted s
  · exact ⟨_, complete_of_not_faulted hf _ _, complete_of_not_faulted (hb.trans hf) _ _⟩
  · exact ⟨_, complete_of_faulted hf _ _, complete_of_faulted (hb.trans hf) _ _⟩

theorem raiseFault_withDin (d : PortWord) (f : FaultCode) (s : State) :
    SameButDin d (raiseFault f s) (raiseFault f (withDin d s)) := by
  have hb : faulted (withDin d s) = faulted s := rfl
  cases hf : faulted s
  · exact ⟨_, raiseFault_of_not_faulted hf _, raiseFault_of_not_faulted (hb.trans hf) _⟩
  · exact ⟨_, raiseFault_of_faulted hf _, raiseFault_of_faulted (hb.trans hf) _⟩

theorem complete_deliver_withDin (d : PortWord) (s : State) (rd : ERegNum) (ok : Bool) (v : Limbs4) :
    SameButDin d (complete s (deliver s rd ok v) 0) (complete (withDin d s) (deliver (withDin d s) rd ok v) 0) := by
  have h : deliver (withDin d s) rd ok v = withDin d (deliver s rd ok v) := by cases ok <;> rfl
  exact h ▸ complete_withDin d s (deliver s rd ok v) 0

/-- A command reads no bit of DIN but the low ones it uses. -/
theorem exec_withDin (i : Instr) (s : State) (d : PortWord)
    (h : d.toNat % 2 ^ dinBits i = s.din.toNat % 2 ^ dinBits i) : SameButDin d (exec i s) (exec i (withDin d s)) := by
  cases i with
  | ldi rd =>
    have hl : limbLane d 0 = limbLane s.din 0 := limbLane_zero_congr h
    show SameButDin d _ (complete (withDin d s) (writeE (withDin d s) rd (fromSmall (limbLane d 0))) 0)
    rw [hl]
    exact complete_withDin d s (writeE s rd _) _
  | ldb rd =>
    have hl : dec32 d = dec32 s.din := dec32_congr h
    rw [exec_ldb, exec_ldb, show (withDin d s).din = d from rfl, hl]
    exact complete_deliver_withDin d s rd _ _
  | ldraw rd =>
    have hl : dec32 d = dec32 s.din := dec32_congr h
    show SameButDin d _ (complete (withDin d s) (deliver (withDin d s) rd (ltq (dec32 d)) (dec32 d)) 0)
    rw [hl]
    exact complete_deliver_withDin d s rd _ _
  | ldw rd =>
    obtain rfl : d = s.din := BitVec.eq_of_toNat_eq (by simpa only [dinBits, BitVec.toNat_mod_cancel] using h)
    exact complete_withDin _ s (writeW s rd _) _
  | ldc rd c =>
    obtain ⟨hn, -⟩ | ⟨v, hv, -⟩ := romRead_cases c
    · simp only [exec, execLdc, hn]
      exact raiseFault_withDin d _ s
    · rw [exec_ldc _ hv, exec_ldc _ hv]
      exact complete_withDin d s (writeE s rd v) _
  | csel rd ra rb cm =>
    have hb : choiceOf (withDin d s) cm = choiceOf s cm := rfl
    obtain ⟨hn, -⟩ | ⟨b, hc, -⟩ := choiceOf_cases s cm
    · simp only [exec, execCsel, hb, hn]
      exact raiseFault_withDin d _ s
    · rw [exec_csel hc, exec_csel (hb.trans hc)]
      exact complete_withDin d s (writeE s rd _) _
  | rdsr sr =>
    have hb : sysRead (withDin d s) sr = sysRead s sr := rfl
    obtain ⟨hn, -⟩ | ⟨v, hv, -⟩ := sysRead_cases s sr
    · simp only [exec, execRdsr, hb, hn]
      exact raiseFault_withDin d _ s
    · exact ⟨_, exec_rdsr hv, exec_rdsr (hb.trans hv)⟩
  | genr | rootu => exact raiseFault_withDin d _ s
  | stb ra | stw ra => exact complete_withDin d s s _
  | mred rd ra | finv rd ra => exact complete_deliver_withDin d s rd _ _
  | fwide rd ra | fneg rd ra | fdbl rd ra | fsqr rd ra | fadd rd ra rb | fsub rd ra rb | fmul rd ra rb | fpow rd ra rb =>
    exact complete_withDin d s (writeE s rd _) _
  | mulw rd ra rb | sqrw rd ra => exact complete_withDin d s (writeW s rd _) _
  | cteq ra rb => exact complete_withDin d s (writeT s _) _
  | fcmp ra rb => exact complete_withDin d s (writeOrd s _) _

/-! ### The statements of the family -/

/-- Settles O8: a decoded command answers as `exec` does, a rejected word as fault entry does. -/
theorem everyCommandIsAnswered : Obligations.EveryCommandIsAnswered := by
  intro s c rest hp
  rw [step_command hp]
  match hd : decode c.cmd with
  | .ok i =>
    obtain ⟨t, ht⟩ := exec_answers i (latch c { s with pending := rest })
    obtain ⟨d, hr, hlt⟩ := exec_response ht
    obtain ⟨-, -, hpending, -⟩ := samePort_exec ht
    refine ⟨t, _, by rw [transact_decoded _ hd, ht], hpending, hr, rfl, fun j hj => ?_, fun ⟨e, he⟩ => ?_⟩
    · obtain rfl : i = j := Except.ok.inj hj
      exact hlt
    · rw [hd] at he
      cases he
  | .error e =>
    obtain ⟨t, ht⟩ := raiseFault_answers .illegalCommand (latch c { s with pending := rest })
    obtain ⟨hpending, hr⟩ := raiseFault_response ht
    refine ⟨t, _, by rw [transact_rejected _ hd, ht], hpending, hr, rfl, fun j hj => ?_, fun _ => rfl⟩
    cases hj

/-- Settles O9, by the host's next move. -/
theorem stepNeverStops : Obligations.StepNeverStops := by
  intro s
  match hp : s.pending with
  | [] => exact ⟨s, step_idle hp⟩
  | .reset f :: rest => exact ⟨_, step_reset hp⟩
  | .command c :: rest =>
    rw [step_command hp]
    exact transact_answers c _

/-- Settles O16: no effect of a command writes the port or the listing. -/
theorem portFrame : Obligations.PortFrame := fun _ _ _ => samePort_exec

/-- Settles O45: stores and RDSR write nothing; what a load writes is a function of DIN, so a second one writes the same. -/
theorem dataMovesAreIdempotent : Obligations.DataMovesAreIdempotent := by
  constructor
  · rintro i s t (⟨ra, rfl⟩ | ⟨ra, rfl⟩ | ⟨sr, rfl, hw⟩) h
    · exact sameRegisters_complete h
    · exact sameRegisters_complete h
    · obtain ⟨-, hn⟩ | ⟨v, hv, -⟩ := sysRead_cases s sr
      · exact absurd (of_decide_eq_true hw) hn
      · rw [exec_rdsr hv, Host.Outcome.next.injEq] at h
        exact h ▸ sameRegisters_respond s _
  · intro i s t u hi ht hu
    have htu : u = t := by
      obtain ⟨rd, rfl⟩ | ⟨rd, rfl⟩ | ⟨rd, rfl⟩ | ⟨rd, c, rfl, hw⟩ | ⟨rd, rfl⟩ := hi
      · exact exec_deliver_twice (ok := fun din => (fromBytes (dec32 din)).1) (v := fun din => (fromBytes (dec32 din)).2)
          (exec_ldb rd) ht hu
      · exact exec_writeE_twice (v := fun din => fromSmall (limbLane din 0)) (fun _ => rfl) ht hu
      · exact exec_deliver_twice (ok := fun din => ltq (dec32 din)) (v := dec32) (fun _ => rfl) ht hu
      · obtain ⟨-, hn⟩ | ⟨v, hv, -⟩ := romRead_cases c
        · exact absurd (of_decide_eq_true hw) hn
        · exact exec_writeE_twice (v := fun _ => v) (fun s => exec_ldc s hv) ht hu
      · exact exec_writeW_twice (v := decWide) (fun _ => rfl) ht hu
    exact htu ▸ ⟨rfl, rfl, rfl, rfl, rfl, rfl, rfl, rfl⟩

/-- Settles O46: what a load reads of DIN is a function of the low bits it uses, and no other command reads DIN. -/
theorem unusedDinBitsIgnored : Obligations.UnusedDinBitsIgnored := fun i s d h => exec_withDin i s d h

/-- Settles O4: the transaction latches the command and runs what it decodes to. -/
theorem stepRunsDecodedCommand : Obligations.StepRunsDecodedCommand := by
  intro s c rest i hp hd
  rw [step_command hp, transact_decoded _ hd]
  rfl

end Sys2Proof.Proofs

/-! PROOFS. The family `30_encoding.md`: the fields of a command word, the rows of the opcode map, then the statements of the
family. -/

namespace Sys2Proof.Proofs

/-! ### The fields of a command word (`30_encoding.md` R60) -/

/-- A field is a quotient and a remainder of the word, the form `omega` reads. -/
theorem toNat_field (lo n : Nat) (w : CmdWord) : (w.extractLsb' lo n).toNat = w.toNat / 2 ^ lo % 2 ^ n := by
  rw [BitVec.extractLsb'_toNat, Nat.shiftRight_eq_div_pow]

theorem field_pack (lo n op rd ra rb imm : Nat) : ((pack op rd ra rb imm).extractLsb' lo n).toNat =
    (op * 0x1000000 + rd * 0x100000 + ra * 0x10000 + rb * 0x1000 + imm) % 2 ^ 32 / 2 ^ lo % 2 ^ n := by
  rw [toNat_field, pack, BitVec.toNat_ofNat]

/-- Two command words with the same five fields are one word. -/
theorem cmdWord_ext {w v : CmdWord} (op : w.extractLsb' 24 8 = v.extractLsb' 24 8)
    (rd : w.extractLsb' 20 4 = v.extractLsb' 20 4) (ra : w.extractLsb' 16 4 = v.extractLsb' 16 4)
    (rb : w.extractLsb' 12 4 = v.extractLsb' 12 4) (imm : w.extractLsb' 0 12 = v.extractLsb' 0 12) : w = v := by
  simp only [← BitVec.toNat_inj, toNat_field] at *
  omega

section
variable {op rd ra rb imm : Nat}

@[simp] theorem op_pack (hrd : rd < 16) (hra : ra < 16) (hrb : rb < 16) (himm : imm < 4096) :
    (pack op rd ra rb imm).extractLsb' 24 8 = BitVec.ofNat 8 op := by
  rw [← BitVec.toNat_inj, field_pack, BitVec.toNat_ofNat]
  omega

@[simp] theorem rd_pack (hra : ra < 16) (hrb : rb < 16) (himm : imm < 4096) :
    (pack op rd ra rb imm).extractLsb' 20 4 = BitVec.ofNat 4 rd := by
  rw [← BitVec.toNat_inj, field_pack, BitVec.toNat_ofNat]
  omega

@[simp] theorem ra_pack (hrb : rb < 16) (himm : imm < 4096) :
    (pack op rd ra rb imm).extractLsb' 16 4 = BitVec.ofNat 4 ra := by
  rw [← BitVec.toNat_inj, field_pack, BitVec.toNat_ofNat]
  omega

@[simp] theorem rb_pack (himm : imm < 4096) : (pack op rd ra rb imm).extractLsb' 12 4 = BitVec.ofNat 4 rb := by
  rw [← BitVec.toNat_inj, field_pack, BitVec.toNat_ofNat]
  omega

@[simp] theorem imm_pack : (pack op rd ra rb imm).extractLsb' 0 12 = BitVec.ofNat 12 imm := by
  rw [← BitVec.toNat_inj, field_pack, BitVec.toNat_ofNat]
  omega

end

/-! ### The rows of the opcode map (`30_encoding.md` R62, R63) -/

/-- The opcode of a row: the op field of its match. -/
def rowOpcode (row : OpcodeRow) : BitVec 8 := row.pat.extractLsb' 24 8

/-- Every mask contains `0xFF000000` (R62). -/
theorem opcodeMap_mask : ∀ row ∈ opcodeMap, row.mask.extractLsb' 24 8 = 0xFF#8 := by decide

/-- Every match holds 0 in the bits its mask leaves open. -/
theorem opcodeMap_pat : ∀ row ∈ opcodeMap, row.pat &&& row.mask = row.pat := by decide

/-- No two rows have one opcode. -/
theorem opcodeMap_opcode : opcodeMap.Pairwise fun a b => rowOpcode a ≠ rowOpcode b := by decide

theorem opcode_of_rowMatches {row : OpcodeRow} {w : CmdWord} (hrow : row ∈ opcodeMap) (h : rowMatches w row = true) :
    w.extractLsb' 24 8 = rowOpcode row := by
  have hpat : w &&& row.mask = row.pat := eq_of_beq h
  rw [rowOpcode, ← hpat, BitVec.extractLsb'_and, opcodeMap_mask row hrow]
  exact (BitVec.and_allOnes (x := w.extractLsb' 24 8)).symm

/-- Settles O21: a row that matches a word has the word's opcode, and no two rows have one opcode. -/
theorem opcodeRowsExclusive : Obligations.OpcodeRowsExclusive :=
  opcodeMap_opcode.imp_of_mem fun ha hb hne _ ⟨hwa, hwb⟩ =>
    hne ((opcode_of_rowMatches ha hwa).symm.trans (opcode_of_rowMatches hb hwb))

/-- Settles O22: the opcodes of the statement are those of the rows. -/
theorem unassignedOpcodesRejected : Obligations.UnassignedOpcodesRejected := by
  intro w hw
  have hnone : opcodeMap.find? (rowMatches w) = none := List.find?_eq_none.mpr fun row hrow hm =>
    hw (opcode_of_rowMatches hrow hm ▸ List.mem_map_of_mem (f := fun r => (rowOpcode r).toNat) hrow)
  rw [decode, hnone]

/-- A row that matches a word is the one the decoder finds, as no row before it matches. -/
theorem decode_of_rowMatches {row : OpcodeRow} {w : CmdWord} (hrow : row ∈ opcodeMap) (h : rowMatches w row = true) :
    decode w = if (row.build w).wellFormed then .ok (row.build w) else .error .illegalImmediate := by
  have hfind : opcodeMap.find? (rowMatches w) = some row := by
    obtain ⟨before, after, hsplit⟩ := List.append_of_mem hrow
    have hexcl := opcodeRowsExclusive
    rw [Obligations.OpcodeRowsExclusive, hsplit, List.pairwise_append] at hexcl
    refine List.find?_eq_some_iff_append.mpr ⟨h, before, after, hsplit, fun a ha => ?_⟩
    simpa using fun hwa => hexcl.2.2 a ha row List.mem_cons_self w ⟨hwa, h⟩
  rw [decode, hfind]

theorem exists_row_of_decode {w : CmdWord} {i : Instr} (h : decode w = .ok i) :
    ∃ row ∈ opcodeMap, rowMatches w row = true ∧ row.build w = i := by
  unfold decode at h
  split at h
  · cases h
  · next row hfind =>
    refine ⟨row, List.mem_of_find?_eq_some hfind, List.find?_some hfind, ?_⟩
    dsimp only at h
    split at h
    · cases h
      rfl
    · cases h

/-! ### A row reads the fields its mask leaves open, and the encoder writes them back (`30_encoding.md` R64, R65) -/

/-- The number a row reads at bit `lo`, `k` bits of the field's `n`, is the field with its high bits dropped. -/
theorem ofNat_low_bits (w : CmdWord) (lo k n : Nat) :
    BitVec.ofNat n (w.toNat >>> lo % 2 ^ k) = w.extractLsb' lo n &&& BitVec.ofNat n (2 ^ k - 1) := by
  refine BitVec.eq_of_getLsbD_eq fun j hj => ?_
  simp [hj, BitVec.getLsbD, Nat.testBit_two_pow_sub_one, Bool.and_comm]

@[simp] theorem ofNat_rdElem (w : CmdWord) : BitVec.ofNat 4 (rdElem w) = w.extractLsb' 20 4 &&& 7#4 := ofNat_low_bits w 20 3 4

@[simp] theorem ofNat_raElem (w : CmdWord) : BitVec.ofNat 4 (raElem w) = w.extractLsb' 16 4 &&& 7#4 := ofNat_low_bits w 16 3 4

@[simp] theorem ofNat_rbElem (w : CmdWord) : BitVec.ofNat 4 (rbElem w) = w.extractLsb' 12 4 &&& 7#4 := ofNat_low_bits w 12 3 4

@[simp] theorem ofNat_rdWide (w : CmdWord) : BitVec.ofNat 4 (rdWide w) = w.extractLsb' 20 4 &&& 3#4 := ofNat_low_bits w 20 2 4

@[simp] theorem ofNat_raWide (w : CmdWord) : BitVec.ofNat 4 (raWide w) = w.extractLsb' 16 4 &&& 3#4 := ofNat_low_bits w 16 2 4

@[simp] theorem ofNat_rbWide (w : CmdWord) : BitVec.ofNat 4 (rbWide w) = w.extractLsb' 12 4 &&& 3#4 := ofNat_low_bits w 12 2 4

@[simp] theorem setWidth_immField (k : Nat) (w : CmdWord) :
    (immField k w).setWidth 12 = w.extractLsb' 0 12 &&& BitVec.ofNat 12 (2 ^ k - 1) := by
  rw [← BitVec.ofNat_toNat, immField, BitVec.toNat_setWidth]
  exact ofNat_low_bits w 0 k 12

/-- Encoding what a row builds from a word keeps the fields the row's mask leaves open and puts the row's match elsewhere. -/
theorem encode_build : ∀ row ∈ opcodeMap, ∀ w, encode (row.build w) = row.pat ||| w &&& ~~~row.mask := by
  simp only [opcodeMap, List.forall_mem_cons, List.not_mem_nil, false_imp_iff, implies_true, and_true]
  and_intros
  all_goals
    intro w
    apply cmdWord_ext
    all_goals simp (disch := omega) [encode, BitVec.extractLsb'_or, BitVec.extractLsb'_and]

/-- A word is a match with the open fields filled in from the word itself exactly when it passes the mask test. -/
theorem fill_eq_self_iff {w pat mask : CmdWord} (hpat : pat &&& mask = pat) :
    pat ||| w &&& ~~~mask = w ↔ w &&& mask = pat := by
  constructor
  · intro h
    calc w &&& mask = (pat ||| w &&& ~~~mask) &&& mask := by rw [h]
      _ = pat &&& mask ||| w &&& (~~~mask &&& mask) := by rw [BitVec.and_or_distrib_right, BitVec.and_assoc]
      _ = pat := by simp [hpat]
  · intro h
    calc pat ||| w &&& ~~~mask = w &&& (mask ||| ~~~mask) := by rw [← h, BitVec.and_or_distrib_left]
      _ = w := by rw [BitVec.or_not_self, BitVec.and_allOnes]

/-- A row matches exactly the words that the encoder gives back. -/
theorem rowMatches_iff_encode_build {row : OpcodeRow} (hrow : row ∈ opcodeMap) (w : CmdWord) :
    rowMatches w row = true ↔ encode (row.build w) = w := by
  rw [encode_build row hrow, fill_eq_self_iff (opcodeMap_pat row hrow), rowMatches, beq_iff_eq]

/-! ### A row reads back the operands the encoder packed -/

/-- The register number a row reads is the one packed: a file's size divides the field's 16 values. -/
theorem ofNat_of_field {m : Nat} [NeZero m] (hm : m ∣ 16) {w : CmdWord} {lo : Nat} {r : Fin m}
    (h : w.extractLsb' lo 4 = BitVec.ofNat 4 r) : Fin.ofNat m (w.toNat >>> lo) = r := by
  have hr : w.toNat >>> lo % 16 = r % 16 := by simpa [← BitVec.toNat_inj] using h
  apply Fin.ext
  rw [Fin.val_ofNat, ← Nat.mod_mod_of_dvd _ hm, hr, Nat.mod_mod_of_dvd _ hm, Nat.mod_eq_of_lt r.isLt]

section
variable {op rd ra rb imm : Nat}

@[simp] theorem rdElem_pack {r : ERegNum} (hra : ra < 16) (hrb : rb < 16) (himm : imm < 4096) :
    rdElem (pack op r ra rb imm) = r := ofNat_of_field (by decide) (rd_pack hra hrb himm)

@[simp] theorem rdWide_pack {r : WRegNum} (hra : ra < 16) (hrb : rb < 16) (himm : imm < 4096) :
    rdWide (pack op r ra rb imm) = r := ofNat_of_field (by decide) (rd_pack hra hrb himm)

@[simp] theorem raElem_pack {r : ERegNum} (hrb : rb < 16) (himm : imm < 4096) :
    raElem (pack op rd r rb imm) = r := ofNat_of_field (by decide) (ra_pack hrb himm)

@[simp] theorem raWide_pack {r : WRegNum} (hrb : rb < 16) (himm : imm < 4096) :
    raWide (pack op rd r rb imm) = r := ofNat_of_field (by decide) (ra_pack hrb himm)

@[simp] theorem rbElem_pack {r : ERegNum} (himm : imm < 4096) : rbElem (pack op rd ra r imm) = r :=
  ofNat_of_field (by decide) (rb_pack himm)

@[simp] theorem rbWide_pack {r : WRegNum} (himm : imm < 4096) : rbWide (pack op rd ra r imm) = r :=
  ofNat_of_field (by decide) (rb_pack himm)

@[simp] theorem immField_pack {k : Nat} (hk : k ≤ 12) {c : BitVec k} : immField k (pack op rd ra rb c.toNat) = c := by
  have hlow (w : CmdWord) : immField k w = (w.extractLsb' 0 12).setWidth k := by
    rw [← BitVec.setWidth_eq_extractLsb' (by decide), BitVec.setWidth_setWidth_of_le _ hk, immField]
  rw [hlow, imm_pack, BitVec.ofNat_toNat, BitVec.setWidth_setWidth_of_le _ hk, BitVec.setWidth_eq]

end

/-! ### The decoder on the word of a command -/

/-- The row of a command builds the command from its word; the rows stand in the order of the constructors (R63). -/
theorem exists_row_build_encode (i : Instr) : ∃ row ∈ opcodeMap, row.build (encode i) = i := by
  have hrow : ∃ row, opcodeMap[i.ctorIdx]? = some row ∧ row.build (encode i) = i := by
    cases i
    all_goals
      refine ⟨_, rfl, ?_⟩
      simp (disch := omega) [encode]
  obtain ⟨row, hget, hbuild⟩ := hrow
  exact ⟨row, List.mem_of_getElem? hget, hbuild⟩

/-- The word of a command reaches step (3) of the decode procedure, which reads the command back. -/
theorem decode_encode (i : Instr) : decode (encode i) = if i.wellFormed then .ok i else .error .illegalImmediate := by
  obtain ⟨row, hrow, hbuild⟩ := exists_row_build_encode i
  have hmatch : rowMatches (encode i) row = true := (rowMatches_iff_encode_build hrow _).mpr (congrArg encode hbuild)
  rw [decode_of_rowMatches hrow hmatch, hbuild]

/-- Settles O18: the immediate check passes. -/
theorem decodeEncodeRoundTrip : Obligations.DecodeEncodeRoundTrip := fun i hi => by rw [decode_encode, if_pos hi]

/-- Settles O19: the row the decoder found matches the word, so the encoder gives the word back. -/
theorem decodedWordIsEncoding : Obligations.DecodedWordIsEncoding := by
  intro w i h
  obtain ⟨row, hrow, hmatch, rfl⟩ := exists_row_of_decode h
  exact ⟨wellFormed_of_decode h, (rowMatches_iff_encode_build hrow w).mp hmatch⟩

/-- Settles O20: the immediate check fails. -/
theorem illegalImmediatesRejected : Obligations.IllegalImmediatesRejected := fun i hi => by
  rw [decode_encode, hi]
  rfl

/-- Settles O23: twelve closed words, each run through the decode procedure. -/
theorem knownWordsDecode : Obligations.KnownWordsDecode := by
  unfold Obligations.KnownWordsDecode
  decide

end Sys2Proof.Proofs

/-! PROOFS. The family `40_limb_arithmetic.md`: `sbb` on every borrow word, then the statement of the family. -/

namespace Sys2Proof.Proofs

open Sys2Proof.Machine Sys2Proof.Safety Sys2Proof.Laws

/-! ### `sbb` on every borrow word (`40_limb_arithmetic.md` R82) -/

/-- Bit 63 of a word, as the integer `sbb` subtracts. -/
theorem toNat_div_eq_msb (c : Word) : c.toNat / 2 ^ 63 = c.msb.toNat := by
  have hc := c.isLt
  rw [BitVec.msb_eq_getLsbD_last, BitVec.getLsbD, Nat.toNat_testBit]
  omega

@[simp] theorem mask_msb (b : Bool) : (mask b).msb = b := by cases b <;> rfl

/-- Only bit 63 of the borrow in is read: any word borrows as the mask of that bit does, so `sbb_val` covers it. -/
theorem sbb_eq_sbb_mask_msb (a b c : Word) : sbb a b c = sbb a b (mask c.msb) := by
  simp only [sbb, toNat_div_eq_msb, mask_msb]

/-- The two cases of R82: the borrow out tells which side of `b + bin` the minuend `a` is on. -/
theorem sbb_cases (a b c : Word) :
    if b.toNat + c.msb.toNat ≤ a.toNat then
      (sbb a b c).2 = 0 ∧ (sbb a b c).1.toNat = a.toNat - (b.toNat + c.msb.toNat)
    else
      (sbb a b c).2 = BitVec.allOnes 64 ∧ (sbb a b c).1.toNat = 2 ^ 64 + a.toNat - (b.toNat + c.msb.toNat) := by
  obtain ⟨bout, hmask, hdiff⟩ := sbb_val a b c.msb
  rw [← sbb_eq_sbb_mask_msb] at hmask hdiff
  have hd := (sbb a b c).1.isLt
  cases bout with
  | false =>
    rw [Bool.toNat_false] at hdiff
    rw [if_pos (by omega)]
    exact ⟨hmask, by omega⟩
  | true =>
    rw [Bool.toNat_true] at hdiff
    rw [if_neg (by omega)]
    exact ⟨hmask, by omega⟩

/-! ### The statement of the family -/

/-- Settles O24: the laws of the four primitives, `sbb` with the bit of its borrow in written as R82's quotient. -/
theorem limbPrimitivesAreExact : Obligations.LimbPrimitivesAreExact := by
  intro a b c d
  have hsbb := sbb_cases a b c
  rw [← toNat_div_eq_msb] at hsbb
  exact ⟨mac_val a b c d, adc_val a b c, hsbb, by rw [ltq_eq, decide_eq_true_iff]⟩

end Sys2Proof.Proofs

/-! PROOFS. The family `41_field_core.md`: what a completed write leaves, the values the nine commands write, then the
statements of the family. -/

namespace Sys2Proof.Proofs

open Sys2Proof.Machine Sys2Proof.Safety Sys2Proof.Laws

/-! ### The completed writes of an unfaulted block -/

section
variable {i : Instr} {s : State} (hs : faulted s = false)
include hs

theorem exec_completes_writeE {rd : ERegNum} {v : Limbs4} (hx : exec i s = complete s (writeE s rd v) 0) :
    ∃ t, exec i s = .next t ∧ OnlyElem rd s t ∧ readE t rd = v :=
  ⟨_, hx.trans (complete_of_not_faulted hs _ _), onlyElem_writeE s rd v, by rw [readE_respond, readE_writeE_same]⟩

theorem exec_completes_writeW {rd : WRegNum} {v : Limbs8} (hx : exec i s = complete s (writeW s rd v) 0) :
    ∃ t, exec i s = .next t ∧ OnlyWide rd s t ∧ readW t rd = v :=
  ⟨_, hx.trans (complete_of_not_faulted hs _ _), onlyWide_writeW s rd v, by rw [readW_respond, readW_writeW_same]⟩

theorem exec_completes_deliver {rd : ERegNum} {ok : Bool} {v : Limbs4}
    (hx : exec i s = complete s (deliver s rd ok v) 0) :
    ∃ t, exec i s = .next t ∧ OnlyElemAndT rd s t ∧ statusT t.status = ok ∧
      readE t rd = if ok then v else readE s rd :=
  ⟨_, hx.trans (complete_of_not_faulted hs _ _), onlyElemAndT_deliver s rd ok v,
    by rw [respond_status, deliver_status, statusT_setT], by rw [readE_respond, readE_deliver_same]⟩

end

/-! ### The values of the field core (`41_field_core.md` R103, R106, R107) -/

/-- The negation of an element with its two cases apart (R112). -/
theorem fneg_cases (a : Limbs4) (ha : val4 a < Config.q) :
    val4 (fneg a) = if val4 a = 0 then 0 else Config.q - val4 a := by
  rw [fneg_val a ha]
  split
  · rw [‹val4 a = 0›, Nat.sub_zero, Nat.mod_self]
  · exact Nat.mod_eq_of_lt (by omega)

/-- On represented values the Montgomery product is the product of the field (R107). -/
theorem represented_mmul (a b : Limbs4) (ha : val4 a < Config.q) (hb : val4 b < Config.q) :
    represented (val4 (mmul a b)) = represented (val4 a) * represented (val4 b) % Config.q := by
  rw [mmul_st a b _ _ (st_represented _ ha).symm (st_represented _ hb).symm, represented_st]

/-- The range test on the high half is the range test of MRED on the whole value (R118). -/
theorem hi4_lt_q_iff (t : Limbs8) : val4 (hi4 t) < Config.q ↔ val8 t < Config.q * 2 ^ 256 := by
  have hlo := val4_lt (lo4 t)
  rw [val8_eq_halves]
  omega

/-- Only one multiple `m·q` with `m < r` clears `t` mod `r`: multiplying `t + m·q` by `n = −q⁻¹` leaves `n·t − m` (R106). -/
theorem clearing_multiplier_unique {q r t m n : Nat} (hm : m < r) (hn : (n * q + 1) % r = 0)
    (hclear : (t + m * q) % r = 0) : m = t % r * n % r := by
  have hm0 : n * (t + m * q) + m ≡ m [MOD r] := by
    have h : n * (t + m * q) ≡ n * 0 [MOD r] := Nat.ModEq.mul_left n hclear
    simpa using h.add_right m
  have ht0 : t * n + m * (n * q + 1) ≡ t * n [MOD r] := by
    have h : m * (n * q + 1) ≡ m * 0 [MOD r] := Nat.ModEq.mul_left m hn
    simpa using h.add_left (t * n)
  calc m
    _ = m % r := (Nat.mod_eq_of_lt hm).symm
    _ = (n * (t + m * q) + m) % r := hm0.symm
    _ = (t * n + m * (n * q + 1)) % r := by ring_nf
    _ = t * n % r := ht0
    _ = t % r * n % r := (Nat.mod_mul_mod t n r).symm

/-! ### The statements of the family -/

/-- Settles O25: the adder is addition mod q. -/
theorem faddAddsModQ : Obligations.FaddAddsModQ := by
  intro rd ra rb
  refine ⟨decodeEncodeRoundTrip (.fadd rd ra rb) rfl, fun s hs => ?_⟩
  obtain ⟨t, hx, hframe, hv⟩ := exec_completes_writeE (i := .fadd rd ra rb) hs rfl
  exact ⟨t, hx, hframe, fun ha hb => hv ▸ fadd_val _ _ ha hb⟩

/-- Settles O26: the subtractor is subtraction mod q. -/
theorem fsubSubtractsModQ : Obligations.FsubSubtractsModQ := by
  intro rd ra rb
  refine ⟨decodeEncodeRoundTrip (.fsub rd ra rb) rfl, fun s hs => ?_⟩
  obtain ⟨t, hx, hframe, hv⟩ := exec_completes_writeE (i := .fsub rd ra rb) hs rfl
  exact ⟨t, hx, hframe, fun ha hb => hv ▸ fsub_val _ _ ha hb⟩

/-- Settles O27: the negator, zero and nonzero. -/
theorem fnegNegatesModQ : Obligations.FnegNegatesModQ := by
  intro rd ra
  refine ⟨decodeEncodeRoundTrip (.fneg rd ra) rfl, fun s hs => ?_⟩
  obtain ⟨t, hx, hframe, hv⟩ := exec_completes_writeE (i := .fneg rd ra) hs rfl
  exact ⟨t, hx, hframe, fun ha => hv ▸ fneg_cases _ ha⟩

/-- Settles O28: the command is FADD with both sources the same register, so O25 gives its value. -/
theorem fdblDoublesModQ : Obligations.FdblDoublesModQ := by
  intro rd ra
  refine ⟨decodeEncodeRoundTrip (.fdbl rd ra) rfl, fun s => ⟨rfl, fun hs => ?_⟩⟩
  obtain ⟨t, hx, hframe, hv⟩ := (faddAddsModQ rd ra ra).2 s hs
  exact ⟨t, hx, hframe, fun ha => by rw [hv ha ha, Nat.two_mul]⟩

/-- Settles O29: the product of the stored values by `mmul_val`, of the represented ones by `represented_mmul`. -/
theorem fmulMultipliesModQ : Obligations.FmulMultipliesModQ := by
  intro rd ra rb
  refine ⟨decodeEncodeRoundTrip (.fmul rd ra rb) rfl, fun s hs => ?_⟩
  obtain ⟨t, hx, hframe, hv⟩ := exec_completes_writeE (i := .fmul rd ra rb) hs rfl
  exact ⟨t, hx, hframe, fun ha hb => hv ▸ ⟨mmul_val _ _ (.inl ha), represented_mmul _ _ ha hb⟩⟩

/-- The squarer and the multiplier write the same limbs, in every state (R115). -/
theorem exec_fsqr_eq_fmul (rd ra : ERegNum) (s : State) : exec (.fsqr rd ra) s = exec (.fmul rd ra ra) s :=
  congrArg (fun v => complete s (writeE s rd v) 0) (msqr_eq_mmul _)

/-- Settles O30: the command is FMUL with both sources the same register, so O29 gives its value. -/
theorem fsqrSquaresModQ : Obligations.FsqrSquaresModQ := by
  intro rd ra
  refine ⟨decodeEncodeRoundTrip (.fsqr rd ra) rfl, fun s => ⟨exec_fsqr_eq_fmul rd ra s, fun hs => ?_⟩⟩
  obtain ⟨t, hx, hframe, hv⟩ := (fmulMultipliesModQ rd ra ra).2 s hs
  refine ⟨t, (exec_fsqr_eq_fmul rd ra s).trans hx, hframe, fun ha => ?_⟩
  obtain ⟨-, hrep⟩ := hv ha ha
  rw [hrep, Nat.pow_two]

/-- Settles O31: the schoolbook product is exact, and a factor below q bounds its high half. -/
theorem mulwMultipliesExactly : Obligations.MulwMultipliesExactly := by
  intro rd ra rb
  refine ⟨decodeEncodeRoundTrip (.mulw rd ra rb) rfl, fun s hs => ?_⟩
  obtain ⟨t, hx, hframe, hv⟩ := exec_completes_writeW (i := .mulw rd ra rb) hs rfl
  refine ⟨t, hx, hframe, ?_⟩
  rw [hv, mulw_val]
  exact ⟨rfl, fun ha hb => ⟨Nat.mul_lt_mul'' ha hb, mulw_hi_lt _ _ (.inl ha)⟩⟩

/-- The full square and the full product write the same limbs, in every state (R117). -/
theorem exec_sqrw_eq_mulw (rd : WRegNum) (ra : ERegNum) (s : State) : exec (.sqrw rd ra) s = exec (.mulw rd ra ra) s :=
  congrArg (fun v => complete s (writeW s rd v) 0) (sqrw_eq_mulw _)

/-- Settles O32: the command is MULW with both sources the same register, so O31 gives its value. -/
theorem sqrwSquaresExactly : Obligations.SqrwSquaresExactly := by
  intro rd ra
  refine ⟨decodeEncodeRoundTrip (.sqrw rd ra) rfl, fun s => ⟨exec_sqrw_eq_mulw rd ra s, fun hs => ?_⟩⟩
  obtain ⟨t, hx, hframe, hval, -⟩ := (mulwMultipliesExactly rd ra ra).2 s hs
  exact ⟨t, (exec_sqrw_eq_mulw rd ra s).trans hx, hframe, by rw [hval, Nat.pow_two]⟩

/-- Settles O33: the range test decides which of the two results is delivered. -/
theorem mredReducesInRange : Obligations.MredReducesInRange := by
  intro rd ra
  refine ⟨decodeEncodeRoundTrip (.mred rd ra) rfl, fun s hs => ?_⟩
  obtain ⟨t, hx, hframe, hT, hv⟩ := exec_completes_deliver (i := .mred rd ra) hs rfl
  refine ⟨t, hx, hframe, ?_⟩
  rw [ltq_eq] at hT hv
  by_cases hhi : val4 (hi4 (readW s ra)) < Config.q
  · rw [decide_eq_true hhi] at hT hv
    rw [if_pos ((hi4_lt_q_iff _).mp hhi)]
    exact ⟨hT, hv ▸ redc_val _ hhi⟩
  · rw [decide_eq_false hhi] at hT hv
    rw [if_neg (mt (hi4_lt_q_iff _).mpr hhi)]
    exact ⟨hT, hv⟩

/-- Settles O34: the multiplier the four rounds build is the one the rule names, as only one clears the low half. -/
theorem reducerIsExact : Obligations.ReducerIsExact := by
  intro t n _ hinv
  obtain ⟨m, hm, V, hV, hredc⟩ := redc_spec t
  have hclear : (val8 t + m * Config.q) % 2 ^ 256 = 0 := by rw [← hV, Nat.mul_mod_right]
  have hquot : (val8 t + m * Config.q) / 2 ^ 256 = V := by rw [← hV, Nat.mul_div_cancel_left V (Nat.two_pow_pos _)]
  rw [← clearing_multiplier_unique hm hinv hclear, hquot]
  exact ⟨hclear, hredc⟩

/-- Settles O35: the product is in the range of MRED, which then delivers the same limbs as FMUL. -/
theorem mulwThenMredIsFmul : Obligations.MulwThenMredIsFmul := by
  intro rd ra rb k s hs ha hb
  obtain ⟨t, hxt, ⟨hte, htw, hts, htf, -⟩, htv⟩ := exec_completes_writeE (i := .fmul rd ra rb) hs rfl
  obtain ⟨u, hxu, ⟨hue, huw, hus, huf, -⟩, huv⟩ := exec_completes_writeW (i := .mulw k ra rb) hs rfl
  have hu : faulted u = false := (faulted_congr hus).trans hs
  obtain ⟨v, hxv, ⟨hve, hvw, hvs, hvf, -⟩, hvT, hvv⟩ := exec_completes_deliver (i := .mred rd k) hu rfl
  have hok : ltq (hi4 (readW u k)) = true := by
    rw [huv, ltq_eq, decide_eq_true_iff]
    exact mulw_hi_lt _ _ (.inl ha)
  rw [hok] at hvT
  refine ⟨t, u, v, hxt, hxu, hxv, fun j => ?_, fun j hj => ?_, hvT, fun j hj hout => ?_, ?_⟩
  · by_cases hj : j = rd
    · rw [hj, hvv, if_pos hok, htv, huv]
      rfl
    · rw [hve j hj, readE_congr hue, hte j hj]
  · rw [readW_congr hvw, huw j hj, readW_congr htw]
  · rw [hvs j hj hout, hus, hts]
  · rw [hvf, huf, htf]

end Sys2Proof.Proofs

/-! PROOFS. The family `42_codec.md`: what a completed store answers and what a tested load delivers, the constant ROM, then
the statements of the family. -/

namespace Sys2Proof.Proofs

open Sys2Proof.Machine Sys2Proof.Safety Sys2Proof.Laws

/-! ### The completed stores and tested loads of an unfaulted block -/

section
variable {i : Instr} {s : State} (hs : faulted s = false)
include hs

theorem exec_completes_store {d : PortWord} (hx : exec i s = complete s s d) :
    ∃ t, exec i s = .next t ∧ SameRegisters s t ∧ t.resp = some ⟨s.status, d⟩ :=
  ⟨_, hx.trans (complete_of_not_faulted hs _ _), sameRegisters_respond s d, respond_resp s d⟩

/-- A load whose result is present exactly when a test passes (`60_exceptions.md` R229), its two cases apart. -/
theorem exec_completes_deliver_if {rd : ERegNum} {p : Prop} [Decidable p] {v : Limbs4}
    (hx : exec i s = complete s (deliver s rd (decide p) v) 0) :
    ∃ t, exec i s = .next t ∧ OnlyElemAndT rd s t ∧
      if p then statusT t.status = true ∧ readE t rd = v else statusT t.status = false ∧ readE t rd = readE s rd := by
  obtain ⟨t, ht, hframe, hT, hv⟩ := exec_completes_deliver hs hx
  refine ⟨t, ht, hframe, ?_⟩
  split
  case isTrue hp => exact ⟨hT.trans (decide_eq_true hp), hv.trans (if_pos (decide_eq_true hp))⟩
  case isFalse hp => exact ⟨hT.trans (decide_eq_false hp), hv.trans (if_neg (mt of_decide_eq_true hp))⟩

end

/-- The stored form of an integer below q reads back as the integer. -/
theorem represented_st_of_lt {n : Nat} (h : n < Config.q) : represented (st n) = n :=
  (represented_st n).trans (Nat.mod_eq_of_lt h)

/-- The values the ROM holds at its five indices (`10_state.md` R30). -/
theorem romRead_val {c : BitVec 3} {v : Limbs4} (h : romRead c = some v) :
    (c = 0 → val4 v = 0) ∧ (c = 1 → val4 v = Config.radix % Config.q) ∧
      (c = 2 → val4 v = Config.radix ^ 2 % Config.q) ∧ (c = 3 → val4 v = Config.radix ^ 3 % Config.q) ∧
      (c = 4 → val4 v = 2 ^ 255) := by
  obtain ⟨h0, h1, h2, h3, h4, -⟩ := constantsMatchDefinitions
  refine ⟨?_, ?_, ?_, ?_, ?_⟩ <;> (rintro rfl; cases h)
  exacts [h0, h1, h2, h3, h4]

/-! ### The statements of the family -/

/-- Settles O38: DOUT carries the canonical limbs, which hold the represented value. -/
theorem stbStoresCanonical : Obligations.StbStoresCanonical := by
  intro ra
  refine ⟨decodeEncodeRoundTrip (.stb ra) rfl, fun s hs => ?_⟩
  obtain ⟨t, hx, hsame, hresp⟩ := exec_completes_store (i := .stb ra) hs rfl
  have hdout : (driveElem (canon (readE s ra))).toNat = represented (val4 (readE s ra)) := by
    rw [driveElem_toNat, canon_val]
  exact ⟨t, _, hx, hsame, hresp, rfl, hdout, hdout ▸ represented_lt _, fun k _ => hdout ▸ byteLane_toNat _ k⟩

/-- Settles O37: the range test on the four limbs decides, FAULT stays 0, so that O38 gives what the STB drives. -/
theorem ldbLoadsCanonical : Obligations.LdbLoadsCanonical := by
  intro rd
  refine ⟨decodeEncodeRoundTrip (.ldb rd) rfl, fun s hs => ?_⟩
  obtain ⟨hok, hst⟩ := fromBytes_val (dec32 s.din)
  obtain ⟨t, hx, hframe, hcases⟩ := exec_completes_deliver_if hs (hok ▸ exec_ldb rd s)
  refine ⟨t, hx, hframe, ?_⟩
  rw [dec32_val] at hst hcases
  by_cases hlt : s.din.toNat % 2 ^ 256 < Config.q
  · rw [if_pos hlt] at hcases ⊢
    obtain ⟨hT, hv⟩ := hcases
    rw [← hv] at hst
    obtain ⟨-, -, hkept, -⟩ := statusFrame (.ldb rd) s t hx
    obtain ⟨hfault, -⟩ := hkept nofun nofun rfl
    have ht : faulted t = false := by rwa [faulted, hfault]
    obtain ⟨u, r, hxu, -, hr, -, hdout, -⟩ := (stbStoresCanonical rd).2 t ht
    exact ⟨hT, hst, u, r, hxu, hr, by rw [hdout, hst, represented_st_of_lt hlt]⟩
  · rwa [if_neg hlt] at hcases ⊢

/-- Settles O39: the low lane of DIN, multiplied by ROM[2], is stored. -/
theorem ldiLoadsSmall : Obligations.LdiLoadsSmall := by
  intro rd
  refine ⟨decodeEncodeRoundTrip (.ldi rd) rfl, fun s hs => ?_⟩
  obtain ⟨t, hx, hframe, hv⟩ := exec_completes_writeE (i := .ldi rd) hs rfl
  refine ⟨t, hx, hframe, ?_⟩
  rw [hv, fromSmall_val, limbLane_toNat, Nat.mul_zero, Nat.pow_zero, Nat.div_one]

/-- Settles O40: the range test on the four limbs decides whether they are delivered as they are. -/
theorem ldrawLoadsStored : Obligations.LdrawLoadsStored := by
  intro rd
  refine ⟨decodeEncodeRoundTrip (.ldraw rd) rfl, fun s hs => ?_⟩
  have hdeliver : exec (.ldraw rd) s = complete s (deliver s rd (ltq (dec32 s.din)) (dec32 s.din)) 0 := rfl
  obtain ⟨t, hx, hframe, hcases⟩ := exec_completes_deliver_if hs (ltq_eq (dec32 s.din) ▸ hdeliver)
  refine ⟨t, hx, hframe, ?_⟩
  rw [dec32_val] at hcases
  by_cases hlt : s.din.toNat % 2 ^ 256 < Config.q
  · rw [if_pos hlt] at hcases ⊢
    obtain ⟨hT, hv⟩ := hcases
    exact ⟨hT, hv ▸ dec32_val s.din⟩
  · rwa [if_neg hlt] at hcases ⊢

/-- Settles O41: the immediate check lets the five indices of the ROM through. -/
theorem ldcLoadsConstant : Obligations.LdcLoadsConstant := by
  intro rd c
  constructor
  · split
    case isTrue hc => exact decodeEncodeRoundTrip (.ldc rd c) (decide_eq_true hc)
    case isFalse hc => exact illegalImmediatesRejected (.ldc rd c) (decide_eq_false hc)
  · intro s hs hc
    obtain ⟨-, hn⟩ | ⟨v, hrom, -⟩ := romRead_cases c
    · exact absurd hc hn
    · obtain ⟨t, hx, hframe, hv⟩ := exec_completes_writeE hs (exec_ldc s hrom)
      exact ⟨t, hx, hframe, hv ▸ romRead_val hrom⟩

/-- Settles O42: the eight lanes of DIN hold its value. -/
theorem ldwLoadsLanes : Obligations.LdwLoadsLanes := by
  intro rd
  refine ⟨decodeEncodeRoundTrip (.ldw rd) rfl, fun s hs => ?_⟩
  obtain ⟨t, hx, hframe, hv⟩ := exec_completes_writeW (i := .ldw rd) hs rfl
  exact ⟨t, hx, hframe, hv ▸ decWide_val s.din⟩

/-- Settles O43: DOUT carries the eight limbs. -/
theorem stwStoresLanes : Obligations.StwStoresLanes := by
  intro ra
  refine ⟨decodeEncodeRoundTrip (.stw ra) rfl, fun s hs => ?_⟩
  obtain ⟨t, hx, hsame, hresp⟩ := exec_completes_store (i := .stw ra) hs rfl
  exact ⟨t, _, hx, hsame, hresp, rfl, driveWide_toNat _⟩

/-- Settles O44: the sum of the two halves' products is the stored form of the whole value, and storing reduces mod q. -/
theorem fwideConvertsWide : Obligations.FwideConvertsWide := by
  intro rd ra
  refine ⟨decodeEncodeRoundTrip (.fwide rd ra) rfl, fun s hs => ?_⟩
  obtain ⟨t, hx, hframe, hv⟩ := exec_completes_writeE (i := .fwide rd ra) hs rfl
  exact ⟨t, hx, hframe, by rw [hv, fromWide_val, st_mod]⟩

end Sys2Proof.Proofs

/-! PROOFS. The family `43_exponentiation.md`: what FINV delivers, the powers of an element on represented values, then the
statements of the family. -/

namespace Sys2Proof.Proofs

open Sys2Proof.Machine Sys2Proof.Safety Sys2Proof.Laws

/-! ### What FINV delivers and what a command leaves unfaulted (`43_exponentiation.md` R161, R163) -/

/-- The inverter answers present for every nonzero content, also one that is not below q (R161). -/
theorem finv_present (a : Limbs4) : (finv a).1 = decide (¬val4 a = 0) := by
  rw [finv, cteq_eq, show val4 romZero = 0 from rfl, decide_not]

section
variable {s : State} (hs : faulted s = false)
include hs

/-- FINV on an unfaulted block, zero and nonzero apart (R163). -/
theorem exec_finv_delivers (rd ra : ERegNum) : ∃ t, exec (.finv rd ra) s = .next t ∧ OnlyElemAndT rd s t ∧
    if val4 (readE s ra) = 0 then statusT t.status = false ∧ readE t rd = readE s rd
    else statusT t.status = true ∧ readE t rd = (finv (readE s ra)).2 := by
  obtain ⟨t, hx, hframe, hcases⟩ := exec_completes_deliver_if hs (finv_present (readE s ra) ▸ exec_finv rd ra s)
  rw [ite_not] at hcases
  exact ⟨t, hx, hframe, hcases⟩

/-- Only GENR, ROOTU and an illegal immediate take an unfaulted block into the faulted state (`10_state.md` R27). -/
theorem not_faulted_of_exec {i : Instr} {t : State} (hx : exec i s = .next t) (hgenr : i ≠ .genr) (hrootu : i ≠ .rootu)
    (hwf : i.wellFormed = true) : faulted t = false := by
  obtain ⟨-, -, hkept, -⟩ := statusFrame i s t hx
  obtain ⟨hfault, -⟩ := hkept hgenr hrootu hwf
  rwa [faulted, hfault]

end

/-! ### Powers of an element (`43_exponentiation.md` R160 to R162) -/

/-- Only zero represents zero. -/
theorem represented_ne_zero {x : Nat} (hx : x < Config.q) (h0 : x ≠ 0) : represented x ≠ 0 :=
  fun h => h0 (represented_injective hx q_pos (h.trans (show 0 = represented 0 by decide)))

/-- ONE is the only element that represents 1. -/
theorem eq_romOne_of_represented {a : Limbs4} (ha : val4 a < Config.q) (h : represented (val4 a) = 1) : a = romOne :=
  val4_injective (by rw [← st_represented _ ha, h, val4_romOne])

section
variable {a : Limbs4} (ha : val4 a < Config.q)
include ha

/-- On represented values square-and-multiply is the power of the field (R160). -/
theorem represented_powv (e : List Word) :
    represented (val4 (powv a e)) = represented (val4 a) ^ listVal e % Config.q := by
  rw [powv_val a _ (st_represented _ ha).symm, represented_st]

/-- Exponents of one value give the same limbs (R160). -/
theorem powv_congr {e e' : List Word} (h : listVal e = listVal e') : powv a e = powv a e' := by
  have hst := powv_val a _ (st_represented _ ha).symm
  exact val4_injective (by rw [hst, hst, h])

/-- Fermat: the power q − 2 of a nonzero element is its inverse (R161). -/
theorem represented_mul_finv (h0 : val4 a ≠ 0) :
    represented (val4 a) * represented (val4 (finv a).2) % Config.q = 1 := by
  have hu : represented (val4 a) % Config.q ≠ 0 := by
    rw [Nat.mod_eq_of_lt (represented_lt _)]
    exact represented_ne_zero ha h0
  rw [finv, represented_powv ha, listVal_qMinus2, Nat.mul_mod_mod]
  exact fermat_inverse _ hu

/-- Fermat: the power q − 1 of a nonzero element represents 1 (R162). -/
theorem represented_pow_q_sub_one (h0 : val4 a ≠ 0) : represented (val4 a) ^ (Config.q - 1) % Config.q = 1 := by
  rw [show Config.q - 1 = Config.q - 2 + 1 by decide, pow_succ', ← listVal_qMinus2, ← Nat.mul_mod_mod,
    ← represented_powv ha]
  exact represented_mul_finv ha h0

end

/-! ### The statements of the family -/

/-- Settles O47: the loop computes the power, and its result is an element. -/
theorem fpowRaisesToPower : Obligations.FpowRaisesToPower := by
  intro rd ra rb
  refine ⟨decodeEncodeRoundTrip (.fpow rd ra rb) rfl, fun s hs => ?_⟩
  obtain ⟨t, hx, hframe, hv⟩ := exec_completes_writeE (i := .fpow rd ra rb) hs rfl
  refine ⟨t, hx, hframe, fun ha => ?_⟩
  rw [hv, represented_powv ha, listVal_exponentLimbs]
  exact ⟨powv_lt _ ha _, rfl⟩

/-- Settles O48: zero is refused, and on an element the power q − 2 is the inverse. -/
theorem finvInverts : Obligations.FinvInverts := by
  intro rd ra
  refine ⟨decodeEncodeRoundTrip (.finv rd ra) rfl, fun s hs => ?_⟩
  obtain ⟨t, hx, hframe, hcases⟩ := exec_finv_delivers hs rd ra
  refine ⟨t, hx, hframe, ?_⟩
  by_cases h0 : val4 (readE s ra) = 0
  · rwa [if_pos h0] at hcases ⊢
  · rw [if_neg h0] at hcases ⊢
    obtain ⟨hT, hv⟩ := hcases
    exact ⟨hT, fun ha => hv ▸ ⟨finv_lt _ ha, represented_mul_finv ha h0⟩⟩

/-- Settles O49: the power q − 1 represents 1 by Fermat, and FINV runs the loop of FPOW on the exponent q − 2. -/
theorem fermatExponents : Obligations.FermatExponents := by
  intro rd ra rb s hs ha h0
  obtain ⟨t, hx, -, hv⟩ := exec_completes_writeE (i := .fpow rd ra rb) hs rfl
  refine ⟨t, hx, fun hw => ?_, fun hw => ?_⟩
  · refine hv ▸ eq_romOne_of_represented (powv_lt _ ha _) ?_
    rw [represented_powv ha, listVal_exponentLimbs, hw, represented_pow_q_sub_one ha h0]
  · obtain ⟨u, hxu, -, hcases⟩ := exec_finv_delivers hs rd ra
    rw [if_neg h0] at hcases
    obtain ⟨-, hu⟩ := hcases
    refine ⟨u, hxu, ?_⟩
    rw [hu, hv, finv]
    exact powv_congr ha (by rw [listVal_qMinus2, listVal_exponentLimbs, hw])

/-- Settles O50: FINV keeps the source, so FMUL multiplies the element by its inverse (O48): ONE. -/
theorem finvThenFmulIsOne : Obligations.FinvThenFmulIsOne := by
  intro rd ra re s hs ha h0 hne
  obtain ⟨t, hxt, ⟨hkept, -⟩, hcases⟩ := (finvInverts rd ra).2 s hs
  rw [if_neg h0] at hcases
  obtain ⟨-, hinv⟩ := hcases
  obtain ⟨hlt, hone⟩ := hinv ha
  rw [← hkept ra hne.symm] at ha hone
  have ht : faulted t = false := not_faulted_of_exec hs hxt nofun nofun rfl
  obtain ⟨u, hxu, -, hmul⟩ := exec_completes_writeE (i := .fmul re ra rd) ht rfl
  refine ⟨t, u, hxt, hxu, hmul ▸ eq_romOne_of_represented (mmul_lt _ _ (.inl ha)) ?_⟩
  rw [represented_mmul _ _ ha hlt, hone]

end Sys2Proof.Proofs

/-! PROOFS. The family `44_constant_time.md`: what a completed flag write leaves, the choice of CSEL and the number of an
order, then the statements of the family. -/

namespace Sys2Proof.Proofs

open Sys2Proof.Machine Sys2Proof.Safety Sys2Proof.Laws

/-! ### The completed flag writes of an unfaulted block -/

section
variable {i : Instr} {s : State} (hs : faulted s = false)
include hs

theorem exec_completes_writeT {b : Bool} (hx : exec i s = complete s (writeT s b) 0) :
    ∃ t, exec i s = .next t ∧ OnlyStatusField 0 1 s t ∧ statusT t.status = b :=
  ⟨_, hx.trans (complete_of_not_faulted hs _ _), onlyStatusField_writeT s b, statusT_setT _ _⟩

theorem exec_completes_writeOrd {o : OrderResult} (hx : exec i s = complete s (writeOrd s o) 0) :
    ∃ t, exec i s = .next t ∧ OnlyStatusField 1 2 s t ∧ statusOrd t.status = orderNumber o :=
  ⟨_, hx.trans (complete_of_not_faulted hs _ _), onlyStatusField_writeOrd s o, statusOrd_setOrd _ _⟩

end

/-! ### The choice of CSEL and the number of an order -/

/-- Mode 3 is the one illegal immediate of CSEL (`30_encoding.md` R66). -/
theorem mode_le_two_iff : ∀ cm : BitVec 2, cm.toNat ≤ 2 ↔ cm ≠ 3 := by decide

/-- The choice each legal mode makes (`44_constant_time.md` R184). -/
theorem choiceOf_val {s : State} {cm : BitVec 2} {b : Bool} (h : choiceOf s cm = some b) :
    (cm = 0 → b = false) ∧ (cm = 1 → b = true) ∧ (cm = 2 → b = statusT s.status) := by
  refine ⟨?_, ?_, ?_⟩ <;> (rintro rfl; cases h; rfl)

/-- The number ORD holds for the order of two stored values (`10_state.md` R26). -/
theorem orderNumber_order (a b : Limbs4) : orderNumber (order a b) =
    if represented (val4 a) = represented (val4 b) then 0
    else if represented (val4 a) < represented (val4 b) then 1 else 2 := by
  rw [order_eq, apply_ite orderNumber, apply_ite orderNumber]
  rfl

/-- ORD is 0 for equal values only. -/
theorem orderNumber_eq_zero_iff (o : OrderResult) : orderNumber o = 0 ↔ o = .equal := by
  cases o <;> decide

/-- On elements the represented order is equality exactly when `cteq` finds the stored limbs equal (R180, R182). -/
theorem order_eq_equal_iff {a b : Limbs4} (ha : val4 a < Config.q) (hb : val4 b < Config.q) :
    order a b = .equal ↔ cteq a b = true := by
  rw [order_eq, cteq_eq, decide_eq_true_iff]
  split
  case isTrue h => exact iff_of_true rfl (represented_injective ha hb h)
  case isFalse h => exact iff_of_false (by split <;> nofun) (mt (congrArg represented) h)

/-! ### The statements of the family -/

/-- Settles O51: the four limb tests together decide whether the values are equal. -/
theorem cteqComparesStored : Obligations.CteqComparesStored := by
  intro ra rb
  refine ⟨decodeEncodeRoundTrip (.cteq ra rb) rfl, fun s hs => ?_⟩
  obtain ⟨t, hx, hframe, hT⟩ := exec_completes_writeT (i := .cteq ra rb) hs rfl
  exact ⟨t, hx, hframe, hT.trans (cteq_eq _ _)⟩

/-- Settles O52: the multiplexer delivers the source that the mode's choice names. -/
theorem cselSelects : Obligations.CselSelects := by
  intro rd ra rb
  refine ⟨fun cm hcm => ?_, illegalImmediatesRejected (.csel rd ra rb 3) rfl, fun s cm hs hcm => ?_⟩
  · exact decodeEncodeRoundTrip (.csel rd ra rb cm) (decide_eq_true ((mode_le_two_iff cm).mpr hcm))
  · obtain ⟨-, hn⟩ | ⟨b, hb, -⟩ := choiceOf_cases s cm
    · exact absurd ((mode_le_two_iff cm).mpr hcm) hn
    · obtain ⟨t, hx, hframe, hv⟩ := exec_completes_writeE hs (exec_csel hb)
      obtain ⟨h0, h1, h2⟩ := choiceOf_val hb
      rw [csel_eq] at hv
      refine ⟨t, hx, hframe, fun hc => ?_, fun hc => ?_, fun hc => ?_⟩
      · exact hv.trans (by rw [h0 hc]; rfl)
      · exact hv.trans (by rw [h1 hc]; rfl)
      · exact hv.trans (by rw [h2 hc])

/-- Settles O53: FCMP orders the canonical limbs, which hold the represented values. -/
theorem fcmpOrdersRepresented : Obligations.FcmpOrdersRepresented := by
  intro ra rb
  refine ⟨decodeEncodeRoundTrip (.fcmp ra rb) rfl, fun s hs => ?_⟩
  obtain ⟨t, hx, hframe, hord⟩ := exec_completes_writeOrd (i := .fcmp ra rb) hs rfl
  exact ⟨t, hx, hframe, hord.trans (orderNumber_order _ _)⟩

/-- Settles O54: on elements the represented value determines the stored one. -/
theorem fcmpAgreesWithCteq : Obligations.FcmpAgreesWithCteq := by
  intro ra rb s hs ha hb
  obtain ⟨t, hxt, -, hord⟩ := exec_completes_writeOrd (i := .fcmp ra rb) hs rfl
  obtain ⟨u, hxu, -, hT⟩ := exec_completes_writeT (i := .cteq ra rb) hs rfl
  refine ⟨t, u, hxt, hxu, ?_⟩
  rw [hord, hT, orderNumber_eq_zero_iff, order_eq_equal_iff ha hb]

end Sys2Proof.Proofs

/-! PROOFS. The family `45_system.md`: fault entry in its two states, the words of GENR and ROOTU, what RDSR reads, then
the statements of the family. -/

namespace Sys2Proof.Proofs

open Sys2Proof.Machine Sys2Proof.Safety Sys2Proof.Laws

/-! ### Fault entry and ignoring (`60_exceptions.md` R224, R225) -/

theorem raiseFault_enters {s : State} (hs : faulted s = false) (f : FaultCode) :
    ∃ t, raiseFault f s = .next t ∧ OnlyFault (faultNumber f) s t :=
  ⟨_, raiseFault_of_not_faulted hs f, onlyFault_entry s f⟩

theorem raiseFault_ignored {s : State} (hs : faulted s = true) (f : FaultCode) :
    ∃ t, raiseFault f s = .next t ∧ SameRegisters s t ∧ AnsweredNothing t :=
  ⟨_, raiseFault_of_faulted hs f, sameRegisters_respond s 0, respond_resp s 0⟩

/-- The step of an unfaulted block on an illegal word is the IllegalCommand entry (`30_encoding.md` R67). -/
theorem step_rejected {s : State} {c : Command} {rest : List HostMove} (hp : s.pending = .command c :: rest)
    (hs : faulted s = false) (hc : Rejected c.cmd) :
    ∃ t, step s = .next t ∧ OnlyFault 1 (latch c { s with pending := rest }) t := by
  obtain ⟨e, he⟩ := hc
  rw [step_command hp, transact_rejected _ he]
  exact raiseFault_enters (s := latch c { s with pending := rest }) hs .illegalCommand

/-! ### The words of GENR and ROOTU (`45_system.md` R203, R204) -/

/-- A command with a legal immediate has one word, the encoder's (O18, O19). -/
theorem decode_eq_ok_iff {i : Instr} (hwf : i.wellFormed = true) (w : CmdWord) : decode w = .ok i ↔ w = encode i := by
  constructor
  · intro h
    obtain ⟨-, hw⟩ := decodedWordIsEncoding w i h
    exact hw.symm
  · rintro rfl
    exact decodeEncodeRoundTrip i hwf

/-- The rows of opcodes 0x58 and 0x59 leave no bit of the word open. -/
theorem opcodeMap_unsupported : ∀ row ∈ opcodeMap, rowOpcode row = 0x58#8 ∨ rowOpcode row = 0x59#8 →
    row.mask = BitVec.allOnes 32 ∧ (row.pat = 0x58000000#32 ∨ row.pat = 0x59000000#32) := by decide

/-- A word of opcode 0x58 or 0x59 that decodes is one of the two words. -/
theorem eq_of_decode_unsupported {w : CmdWord} {i : Instr} (h : decode w = .ok i)
    (hop : w.extractLsb' 24 8 = 0x58#8 ∨ w.extractLsb' 24 8 = 0x59#8) : w = 0x58000000#32 ∨ w = 0x59000000#32 := by
  obtain ⟨row, hrow, hmatch, -⟩ := exists_row_of_decode h
  rw [opcode_of_rowMatches hrow hmatch] at hop
  obtain ⟨hmask, hpat⟩ := opcodeMap_unsupported row hrow hop
  have hw : w = row.pat := by rw [← eq_of_beq hmatch, hmask, BitVec.and_allOnes]
  exact hw ▸ hpat

/-! ### What RDSR reads (`45_system.md` R201) -/

/-- RDSR of a listed register completes in every state, the faulted one too. -/
theorem exec_rdsr_completes {s : State} {sr : BitVec 4} {v : Word} (h : sysRead s sr = some v) :
    ∃ t, exec (.rdsr sr) s = .next t ∧ SameRegisters s t ∧ t.resp = some ⟨s.status, driveWord v⟩ :=
  ⟨_, exec_rdsr h, sameRegisters_respond s _, respond_resp s _⟩

/-- The limbs of q, as R33 lists them. -/
theorem qLimbs_toNat : qLimbs.l0.toNat = Config.q % 2 ^ 64 ∧ qLimbs.l1.toNat = Config.q / 2 ^ 64 % 2 ^ 64 ∧
    qLimbs.l2.toNat = Config.q / 2 ^ 128 % 2 ^ 64 ∧ qLimbs.l3.toNat = Config.q / 2 ^ 192 := by decide

/-- The value of each listed register (`10_state.md` R33). -/
theorem sysRead_val {s : State} {sr : BitVec 4} {v : Word} (h : sysRead s sr = some v) :
    (sr = 0 → v.toNat = s.status.toNat) ∧ (sr = 1 → v.toNat = s.fcmd.toNat) ∧
    (sr = 2 → v.toNat = 256) ∧ (sr = 3 → v.toNat = 255) ∧ (sr = 4 → v.toNat = 6) ∧
    (sr = 8 → v.toNat = Config.q % 2 ^ 64) ∧ (sr = 9 → v.toNat = Config.q / 2 ^ 64 % 2 ^ 64) ∧
    (sr = 10 → v.toNat = Config.q / 2 ^ 128 % 2 ^ 64) ∧ (sr = 11 → v.toNat = Config.q / 2 ^ 192) := by
  obtain ⟨h0, h1, h2, h3⟩ := qLimbs_toNat
  refine ⟨?_, ?_, ?_, ?_, ?_, ?_, ?_, ?_, ?_⟩ <;> (rintro rfl; cases h)
  · exact BitVec.toNat_setWidth_of_le (by decide)
  · exact BitVec.toNat_setWidth_of_le (by decide)
  exacts [rfl, rfl, rfl, h0, h1, h2, h3]

/-! ### The statements of the family -/

/-- Settles O55: the immediate check lets the nine listed numbers through, and DOUT carries the register's word. -/
theorem rdsrReadsSystemRegister : Obligations.RdsrReadsSystemRegister := by
  intro sr
  constructor
  · split
    case isTrue hsr => exact decodeEncodeRoundTrip (.rdsr sr) (decide_eq_true hsr)
    case isFalse hsr => exact illegalImmediatesRejected (.rdsr sr) (decide_eq_false hsr)
  · intro s hsr
    obtain ⟨-, hn⟩ | ⟨v, hv, -⟩ := sysRead_cases s sr
    · exact absurd hsr hn
    · obtain ⟨t, hx, hsame, hresp⟩ := exec_rdsr_completes hv
      refine ⟨t, _, hx, hsame, hresp, rfl, ?_⟩
      rw [driveWord_toNat]
      exact sysRead_val hv

/-- Settles O56: each is the one word of its encoding, and both are the UnsupportedOperation entry. -/
theorem unsupportedCommandsFault : Obligations.UnsupportedCommandsFault := by
  refine ⟨decode_eq_ok_iff (i := .genr) rfl, decode_eq_ok_iff (i := .rootu) rfl, fun w hop hgenr hrootu => ?_,
    fun s i hi => ?_⟩
  · match hd : decode w with
    | .error e => exact ⟨e, hd⟩
    | .ok i => exact absurd (eq_of_decode_unsupported hd hop) (not_or.mpr ⟨hgenr, hrootu⟩)
  · have hx : exec i s = raiseFault .unsupportedOperation s := by obtain rfl | rfl := hi <;> rfl
    rw [hx]
    exact ⟨fun hs => raiseFault_enters hs .unsupportedOperation, fun hs => raiseFault_ignored hs _⟩

/-- Settles O59: fault entry writes the word to FCMD, and RDSR executes in the faulted state (O55). -/
theorem faultingWordReadsBack : Obligations.FaultingWordReadsBack := by
  intro s c d rest hs hc hp
  obtain ⟨t, hstep, hfault, hfcmd, -, -, -, ⟨-, -, hpending, -⟩, -⟩ := step_rejected hp hs hc
  have hd : decode 0x50000001#32 = .ok (.rdsr 1) := decodeEncodeRoundTrip (.rdsr 1) rfl
  obtain ⟨u, r, hx, ⟨-, -, hstatus, -⟩, hresp, hrstat, -, hdout, -⟩ :=
    (rdsrReadsSystemRegister 1).2 (latch ⟨0x50000001#32, d⟩ { t with pending := rest }) (by decide)
  refine ⟨t, u, r, hstep, ?_, hresp, hrstat, ?_, ?_⟩
  · rw [step_command hpending, transact_decoded _ hd, hx]
  · exact (hdout rfl).trans (congrArg BitVec.toNat hfcmd)
  · exact (congrArg statusFault hstatus).trans hfault

end Sys2Proof.Proofs

/-! PROOFS. The family `60_exceptions.md`: the command no word decodes to, what a faulted block does with a command and
with a word, then the statements of the family. -/

namespace Sys2Proof.Proofs

open Sys2Proof.Machine Sys2Proof.Safety Sys2Proof.Laws

/-! ### The ill-formed command (`30_encoding.md` R66, log 7) -/

/-- Only LDC, CSEL and RDSR can be ill-formed, and each then finds nothing to read. -/
theorem exec_of_not_wellFormed {i : Instr} (hi : i.wellFormed = false) (s : State) :
    exec i s = raiseFault .illegalCommand s := by
  cases i with
  | ldc rd c =>
    obtain ⟨hn, -⟩ | ⟨v, -, hc, -⟩ := romRead_cases c
    · show execLdc rd c s = _
      rw [execLdc, hn]
    · exact absurd hc (of_decide_eq_false hi)
  | csel rd ra rb cm =>
    obtain ⟨hn, -⟩ | ⟨b, -, hc⟩ := choiceOf_cases s cm
    · show execCsel rd ra rb cm s = _
      rw [execCsel, hn]
    · exact absurd hc (of_decide_eq_false hi)
  | rdsr sr =>
    obtain ⟨hn, -⟩ | ⟨v, -, hc⟩ := sysRead_cases s sr
    · show execRdsr sr s = _
      rw [execRdsr, hn]
    · exact absurd hc (of_decide_eq_false hi)
  | _ => cases hi

/-! ### The faulted state (`60_exceptions.md` R225) -/

/-- Of the four ways a command is answered, only the read of a legal RDSR is open to a faulted block beside ignoring. -/
theorem exec_of_faulted {i : Instr} {s : State} (hs : faulted s = true)
    (hi : ∀ sr, i = .rdsr sr → i.wellFormed = false) : exec i s = .next (ignore s) := by
  obtain ⟨hx, -⟩ | ⟨s', d, -, hn, -⟩ | ⟨sr, v, hrdsr, hw, -⟩ | ⟨f, -, hn, -⟩ := exec_cases i s
  · exact hx
  · exact absurd hs (Bool.eq_false_iff.mp hn)
  · exact absurd hw (Bool.eq_false_iff.mp (hi sr hrdsr))
  · exact absurd hs (Bool.eq_false_iff.mp hn)

section
variable {s : State} {c : Command} {rest : List HostMove}

/-- A faulted block ignores a word that is not a legal RDSR, whether it decodes or not. -/
theorem step_of_faulted (hp : s.pending = .command c :: rest) (hs : faulted s = true)
    (hc : ∀ sr, decode c.cmd ≠ .ok (.rdsr sr)) : step s = .next (ignore (latch c { s with pending := rest })) := by
  have hl : faulted (latch c { s with pending := rest }) = true := hs
  rw [step_command hp]
  match hd : decode c.cmd with
  | .ok i =>
    rw [transact_decoded _ hd]
    exact exec_of_faulted hl fun sr hi => absurd (hi ▸ hd) (hc sr)
  | .error e =>
    rw [transact_rejected _ hd]
    exact raiseFault_of_faulted hl _

/-- A legal RDSR word names a listed register, and the step answers with it in every state (`45_system.md` R201). -/
theorem step_rdsr {sr : BitVec 4} (hp : s.pending = .command c :: rest) (hd : decode c.cmd = .ok (.rdsr sr)) :
    ∃ v, sysRead s sr = some v ∧ step s = .next (respond (latch c { s with pending := rest }) (driveWord v)) := by
  obtain ⟨-, hn⟩ | ⟨v, hv, -⟩ := sysRead_cases s sr
  · exact absurd (of_decide_eq_true (wellFormed_of_decode hd)) hn
  · refine ⟨v, hv, ?_⟩
    rw [step_command hp, transact_decoded _ hd]
    exact exec_rdsr hv

end

/-! ### The statements of the family -/

/-- Settles O5: the step of an illegal word is the IllegalCommand entry. -/
theorem rejectedWordFaults : Obligations.RejectedWordFaults := fun _ _ _ hp hc hs => step_rejected hp hs hc

/-- Settles O7, by whether the word is a legal RDSR. -/
theorem faultedBlockServesOnlyRdsr : Obligations.FaultedBlockServesOnlyRdsr := by
  intro s c rest hp hs
  by_cases hc : ∃ sr, decode c.cmd = .ok (.rdsr sr)
  · obtain ⟨sr, hd⟩ := hc
    obtain ⟨v, hv, hstep⟩ := step_rdsr hp hd
    refine ⟨_, hstep, sameRegisters_respond _ _, fun hno => absurd hd (hno sr), fun sr' hd' => ?_⟩
    obtain rfl : sr = sr' := Instr.rdsr.inj (Except.ok.inj (hd.symm.trans hd'))
    exact ⟨v, hv, _, rfl, rfl, driveWord_toNat v⟩
  · exact ⟨_, step_of_faulted hp hs (not_exists.mp hc), sameRegisters_respond _ _, fun _ => rfl,
      fun sr hd => absurd ⟨sr, hd⟩ hc⟩

/-- Settles O57: a faulted block answers such a command with STATUS and writes nothing. -/
theorem faultedCommandsIgnored : Obligations.FaultedCommandsIgnored := fun _ s hs hi =>
  ⟨_, exec_of_faulted hs hi, sameRegisters_respond s 0, rfl⟩

/-- Settles O58: the ill-formed command is the IllegalCommand entry. -/
theorem illegalImmediatesFault : Obligations.IllegalImmediatesFault := by
  intro i s hs hi
  rw [exec_of_not_wellFormed hi]
  exact raiseFault_enters hs .illegalCommand

/-- Settles O3: with no move to make, the step is the idle one. -/
theorem idleBlockKeepsState : Obligations.IdleBlockKeepsState := fun _ => step_idle

/-- Settles O6, for each of the two codes. -/
theorem faultEntryWritesOnlyFault : Obligations.FaultEntryWritesOnlyFault := fun _ hs =>
  ⟨raiseFault_enters hs .illegalCommand, raiseFault_enters hs .unsupportedOperation⟩

end Sys2Proof.Proofs

/-! PROOFS. The family `70_reset_and_hazards.md`: the registers of a block just reset, then the statement of the family. -/

namespace Sys2Proof.Proofs

open Sys2Proof.Machine Sys2Proof.Laws

/-! ### The block just reset (`70_reset_and_hazards.md` R251) -/

theorem readE_applyReset (s : State) (i : ERegNum) : readE (applyReset s) i = zero4 :=
  (readE_congr (applyReset_e s) i).trans (readE_reset i)

theorem readW_applyReset (s : State) (i : WRegNum) : readW (applyReset s) i = zero8 :=
  (readW_congr (applyReset_w s) i).trans (readW_reset i)

/-- Reset is the exit from the faulted state (`60_exceptions.md` R227). -/
theorem faulted_applyReset (s : State) : faulted (applyReset s) = false := by
  rw [not_faulted_iff, applyReset_status]
  decide

/-! ### The statement of the family -/

/-- Settles O2: whatever was in flight, the step is the reset, and the block it leaves answers the next command as every
block does (O8). -/
theorem resetMoveResets : Obligations.ResetMoveResets := by
  intro s inFlight rest hp
  refine ⟨_, step_reset hp, readE_applyReset _, readW_applyReset _, applyReset_status _, applyReset_fcmd _,
    faulted_applyReset _, applyReset_resp _, applyReset_pending _, fun c more hrest => ?_⟩
  obtain ⟨u, r, hu, -, hresp, -⟩ :=
    everyCommandIsAnswered (applyReset { s with pending := rest }) c more hrest
  exact ⟨u, hu, by simp [hresp]⟩

end Sys2Proof.Proofs
